-- ==== Sys2Proof/Word.lean ====
section
/-! DEFINITION. The widths the HD44780 instruction encoder works with (spec 00_scope.md R7, R9). -/

namespace Sys2Proof

/-- One flag, `Bits(1)` of R9. -/
abbrev Bit := BitVec 1

/-- Half of a byte, as it crosses a four-bit bus (R53). -/
abbrev Nibble := BitVec 4

/-- Any byte: a data byte or one byte of an I2C write. -/
abbrev Byte := BitVec 8

/-- `Word` of R9: an encoded instruction, bit 7 is DB7 and bit 0 is DB0 (R7, R52). -/
abbrev Word := BitVec 8

end Sys2Proof
end

