-- ==== Sys2Proof/Config.lean ====
section
/-! DEFINITION. The configuration of one instance (spec 00_scope.md R5, 10_state.md R22) and the free values
the spec calls draws. The validity check R6 is `Machine.configValid` in Machine/Ops.lean. -/

namespace Sys2Proof

/-- `cfg.TRANSPORT` (R5). -/
inductive Transport where
  | parallel
  | i2c
deriving DecidableEq, Repr

/-- `cfg.IFACE_WIDTH` (R5): 4 or 8 data lines. -/
inductive IfaceWidth where
  | w4
  | w8
deriving DecidableEq, Repr

/-- `cfg.ADDR_POLICY` (R5): what happens to an address wider than its field. -/
inductive AddrPolicy where
  | reject
  | mask
deriving DecidableEq, Repr

/-- `cfg.READ_MODE` (R5): what STATUS does. -/
inductive ReadMode where
  | unsupported
  | stubZero
  | sampled
deriving DecidableEq, Repr

/-- `cfg.TARGET` (R5): the I2C bus address or the parallel pin map. It is opaque to the block, which only passes
it on, so a plain token stands for it (notes/assumptions/13.md, DESIGN CHOICE). -/
abbrev Target := Nat

/-- `cfg.I2C_MAP` (R5, R144): the bit position of each of the eight signals in one I2C byte. -/
structure I2cMap where
  rs : Nat := 4
  rw : Nat := 5
  en : Nat := 6
  bl : Nat := 7
  d0 : Nat := 0
  d1 : Nat := 1
  d2 : Nat := 2
  d3 : Nat := 3
deriving DecidableEq, Repr

/-- `cfg.INIT_DELAYS_MS` (R5, R171): the least delay before each of the three fallback words. R22 gives three naturals
and no bound; that a configuration below 50, 5, 1 is valid is a DESIGN CHOICE (notes/assumptions/23.md). -/
structure InitDelays where
  first : Nat := 50
  second : Nat := 5
  third : Nat := 1
deriving DecidableEq, Repr

/-- The configuration registers of R22, with the defaults of R5; a field without a default must be supplied.
`backlight` is absent where the host gives none, which R5 allows for a parallel instance. `fs8` is any byte, as R22 types
it: that one which is no function-set word is valid is a DESIGN CHOICE (notes/assumptions/25.md). -/
structure Config where
  transport : Transport
  ifaceWidth : IfaceWidth
  lineCount : Nat
  lineOffsets : List Nat
  target : Target
  backlight : Option Bit
  initFallback : Bool := false
  addrPolicy : AddrPolicy := .reject
  readMode : ReadMode := .unsupported
  sinkCanFail : Bool := false
  i2cMap : I2cMap := {}
  addrInBits : Nat := 8
  colBits : Nat := 8
  lineInBits : Nat := 8
  terminator : Byte := 0x00#8
  fs8 : Word := 0x30#8
  initDelaysMs : InitDelays := {}
deriving DecidableEq, Repr

/-- The configuration of `Machine.State.reset`: the one of program P1 of 95_test_vectors.md (parallel, width 4, two
lines at 0 and 64, defaults elsewhere). R230 says the host supplies it, so this is a DESIGN CHOICE
(notes/assumptions/1.md, unsafe where a claim rests on it). -/
def Config.atReset : Config where
  transport := .parallel
  ifaceWidth := .w4
  lineCount := 2
  lineOffsets := [0, 64]
  target := 0
  backlight := none

/-- FREE VALUE (R141): the sink's answer to a transaction is a draw. The `n`-th draw no input of the environment
fixes; nothing in Lean can evaluate it (notes/assumptions/5.md). -/
opaque Config.sinkAnswer : Nat → Bool

/-- FREE VALUE (R152, R177): the byte sampled by a read cycle is a draw. The `n`-th draw no input of the
environment fixes (notes/assumptions/5.md). -/
opaque Config.sampledByte : Nat → Byte

end Sys2Proof
end

