-- ==== Sys2Proof/Syntax.lean ====
section
/-! DEFINITION. The instructions: the tagged bus instruction of R9, one constructor of `Instr` per row of
spec/opcode_table.json (ten bus words, ten host commands, six reserved tags), and the packets a host hands over. -/

namespace Sys2Proof

/-- The tagged instruction the spec calls `Instr` (R9): what the encoder turns into a word and what INIT and TXI
take as operands (R85). -/
inductive BusInstr where
  | clear
  | home
  | entryMode (id s : Bit)
  | displayCtl (d c b : Bit)
  | shift (sc rl : Bit)
  | functionSet (dl n f : Bit)
  | setCgram (a : BitVec 6)
  | setDdram (a : BitVec 7)
deriving DecidableEq, Repr

/-- The class of a bus instruction (R81), part of an operand's type (R85). -/
inductive BusClass where
  | clear
  | home
  | entryMode
  | displayCtl
  | shift
  | functionSet
  | setCgram
  | setDdram
deriving DecidableEq, Repr

/-- Every row of spec/opcode_table.json. The first ten are the bus words of R80 and R83 (RS, R/W, DB7..DB0), the
next ten the host commands of R84, the last six the reserved host tags of R89. -/
inductive Instr where
  | clear
  | home
  | entryMode (id s : Bit)
  | displayControl (d c b : Bit)
  | shift (sc rl : Bit)
  | functionSet (dl n f : Bit)
  | setCgramAddress (a : BitVec 6)
  | setDdramAddress (a : BitVec 7)
  | writeData (d : Byte)
  | readBfAc (bf : Bit) (ac : BitVec 7)
  | init (fs dc em : BusInstr)
  | clearCmd
  | homeCmd
  | setcg (a : Nat)
  | setdd (a : Nat)
  | cursor (line col : Nat)
  | puts (bytes : List Byte)
  | status
  | txi (i : BusInstr)
  | txd (b : Byte)
  | reservedA
  | reservedB
  | reservedC
  | reservedD
  | reservedE
  | reservedF
deriving DecidableEq, Repr

/-- What reaches the block in one step: a bus word for the transport capability interface (R3, R80), or a host
command as its four-bit tag and its operand bytes (R84). The spec gives operands no bit layout: the byte layout is
a DESIGN CHOICE (notes/assumptions/4.md). -/
inductive Packet where
  | busWord (w : BitVec 10)
  | command (tag : BitVec 4) (operands : List Byte)
deriving DecidableEq, Repr

/-- Why a packet is no instruction. -/
inductive PacketError where
  /-- A bus word with RS=0, R/W=0 and DB=0x00: R89, no instruction. -/
  | noInstruction
  /-- A bus word with RS=1 and R/W=1 (read data): R89, not in any source. -/
  | readData
  /-- Operand bytes end before the command's operands do. -/
  | missingOperand
  /-- Operand bytes are left after the command's operands. -/
  | trailingOperand
  /-- An `Instr` operand whose class byte names none of the eight classes of R81. -/
  | badClass
  /-- An `Instr` operand whose field byte reaches the class's own bit. -/
  | badField
  /-- An `Instr` operand with a don't-care bit set, refused by R92. -/
  | dontCareBit
  /-- A number not below two to the width R86 gives it; R92 and D6 refuse it. -/
  | wideOperand
deriving DecidableEq, Repr

end Sys2Proof
end

