-- ==== Sys2Proof/WellFormed.lean ====
section
/-! DEFINITION. Which instructions a host can issue under a configuration: R86's operand widths. Every other
constraint is in the types (R85). -/

namespace Sys2Proof

/-- R86: SETCG's and SETDD's address is below `2^ADDR_IN_BITS`, CURSOR's line below `2^LINE_IN_BITS` and its column
below `2^COL_BITS`. Every other operand is in range by its type. -/
def wellFormed (cfg : Config) : Instr → Bool
  | .clear => true
  | .home => true
  | .entryMode _ _ => true
  | .displayControl _ _ _ => true
  | .shift _ _ => true
  | .functionSet _ _ _ => true
  | .setCgramAddress _ => true
  | .setDdramAddress _ => true
  | .writeData _ => true
  | .readBfAc _ _ => true
  | .init _ _ _ => true
  | .clearCmd => true
  | .homeCmd => true
  | .setcg a => decide (a < 2 ^ cfg.addrInBits)
  | .setdd a => decide (a < 2 ^ cfg.addrInBits)
  | .cursor line col => decide (line < 2 ^ cfg.lineInBits) && decide (col < 2 ^ cfg.colBits)
  | .puts _ => true
  | .status => true
  | .txi _ => true
  | .txd _ => true
  | .reservedA => true
  | .reservedB => true
  | .reservedC => true
  | .reservedD => true
  | .reservedE => true
  | .reservedF => true

end Sys2Proof
end

