-- ==== Sys2Proof/Decode.lean ====
section
/-! DEFINITION. The encodings of 30_encoding.md: `enc` (R87) and `dec` (R88) between bus instructions and words,
then `decode` and `encode` between packets and instructions, total and refusing by name. -/

namespace Sys2Proof

/-- `zext_8` of R7. -/
def zext8 {n : Nat} (v : BitVec n) : Word := v.setWidth 8

/-- R87 (and R100 to R107): the word of a bus instruction. Every don't-care bit is 0 (D24). -/
def enc : BusInstr → Word
  | .clear => 0x01#8
  | .home => 0x02#8
  | .entryMode id s => 0x04#8 ||| (zext8 id <<< 1) ||| zext8 s
  | .displayCtl d c b => 0x08#8 ||| (zext8 d <<< 2) ||| (zext8 c <<< 1) ||| zext8 b
  | .shift sc rl => 0x10#8 ||| (zext8 sc <<< 3) ||| (zext8 rl <<< 2)
  | .functionSet dl n f => 0x20#8 ||| (zext8 dl <<< 4) ||| (zext8 n <<< 3) ||| (zext8 f <<< 2)
  | .setCgram a => 0x40#8 ||| zext8 a
  | .setDdram a => 0x80#8 ||| zext8 a

/-- R88: the class is the highest set bit, tried from DB7 down; don't-care bits are ignored; 0x00 is invalid. -/
def dec (w : Word) : Option BusInstr :=
  if w.getLsbD 7 then some (.setDdram (w.extractLsb' 0 7))
  else if w.getLsbD 6 then some (.setCgram (w.extractLsb' 0 6))
  else if w.getLsbD 5 then some (.functionSet (w.extractLsb' 4 1) (w.extractLsb' 3 1) (w.extractLsb' 2 1))
  else if w.getLsbD 4 then some (.shift (w.extractLsb' 3 1) (w.extractLsb' 2 1))
  else if w.getLsbD 3 then some (.displayCtl (w.extractLsb' 2 1) (w.extractLsb' 1 1) (w.extractLsb' 0 1))
  else if w.getLsbD 2 then some (.entryMode (w.extractLsb' 1 1) (w.extractLsb' 0 1))
  else if w.getLsbD 1 then some .home
  else if w.getLsbD 0 then some .clear
  else none

/-- The class of a bus instruction (R81). -/
def BusInstr.cls : BusInstr → BusClass
  | .clear => .clear
  | .home => .home
  | .entryMode _ _ => .entryMode
  | .displayCtl _ _ _ => .displayCtl
  | .shift _ _ => .shift
  | .functionSet _ _ _ => .functionSet
  | .setCgram _ => .setCgram
  | .setDdram _ => .setDdram

/-- The index of a class's highest set bit (R81, R88), which numbers the classes in R9's order. -/
def BusClass.bit : BusClass → Nat
  | .clear => 0
  | .home => 1
  | .entryMode => 2
  | .displayCtl => 3
  | .shift => 4
  | .functionSet => 5
  | .setCgram => 6
  | .setDdram => 7

/-- The bus-word row of the opcode table that carries a bus instruction (R80: RS=0, R/W=0). -/
def BusInstr.toInstr : BusInstr → Instr
  | .clear => .clear
  | .home => .home
  | .entryMode id s => .entryMode id s
  | .displayCtl d c b => .displayControl d c b
  | .shift sc rl => .shift sc rl
  | .functionSet dl n f => .functionSet dl n f
  | .setCgram a => .setCgramAddress a
  | .setDdram a => .setDdramAddress a

/-- R80, R83, R89: a ten-bit bus word, RS in bit 9, R/W in bit 8, DB7..DB0 below. -/
def decodeBusWord (w : BitVec 10) : Except PacketError Instr :=
  let db : Word := w.extractLsb' 0 8
  if w.getLsbD 9 then
    if w.getLsbD 8 then .error .readData else .ok (.writeData db)
  else if w.getLsbD 8 then .ok (.readBfAc (db.extractLsb' 7 1) (db.extractLsb' 0 7))
  else
    match dec db with
    | none => .error .noInstruction
    | some i => .ok i.toInstr

/-- How many operand bytes carry a number of `bits` bits (notes/assumptions/4.md, DESIGN CHOICE). -/
def bytesFor (bits : Nat) : Nat := (bits + 7) / 8

/-- A number of `n` bytes, least significant first, and the bytes after it. -/
def takeNat : Nat → List Byte → Except PacketError (Nat × List Byte)
  | 0, bs => .ok (0, bs)
  | _ + 1, [] => .error .missingOperand
  | n + 1, b :: bs =>
    match takeNat n bs with
    | .error e => .error e
    | .ok (v, rest) => .ok (b.toNat + 256 * v, rest)

/-- The `n` bytes of a number, least significant first. -/
def putNat : Nat → Nat → List Byte
  | 0, _ => []
  | n + 1, v => BitVec.ofNat 8 v :: putNat n (v / 256)

/-- A number operand of the width R86 gives it. -/
def takeOperand (bits : Nat) (bs : List Byte) : Except PacketError (Nat × List Byte) :=
  match takeNat (bytesFor bits) bs with
  | .error e => .error e
  | .ok (v, rest) => if v < 2 ^ bits then .ok (v, rest) else .error .wideOperand

/-- An `Instr` operand from its class byte and its field byte: the word is the class's own bit over the fields
(R81), with the refusals of R92. -/
def busOfOperand (c f : Byte) : Except PacketError BusInstr :=
  if 8 ≤ c.toNat then .error .badClass
  else if 2 ^ c.toNat ≤ f.toNat then .error .badField
  else
    match dec ((1#8 <<< c.toNat) ||| f) with
    | none => .error .badClass
    | some i => if enc i = (1#8 <<< c.toNat) ||| f then .ok i else .error .dontCareBit

/-- An `Instr` operand: two bytes, class then fields. -/
def takeBus : List Byte → Except PacketError (BusInstr × List Byte)
  | c :: f :: rest =>
    match busOfOperand c f with
    | .error e => .error e
    | .ok i => .ok (i, rest)
  | [_] => .error .missingOperand
  | [] => .error .missingOperand

/-- The two bytes of an `Instr` operand. -/
def putBus (i : BusInstr) : List Byte :=
  [BitVec.ofNat 8 i.cls.bit, enc i ^^^ (1#8 <<< i.cls.bit)]

/-- A command whose operands are all read: no byte may be left. -/
def noMore (i : Instr) : List Byte → Except PacketError Instr
  | [] => .ok i
  | _ :: _ => .error .trailingOperand

/-- INIT's three `Instr` operands (R84). -/
def decodeInit (bs : List Byte) : Except PacketError Instr :=
  match takeBus bs with
  | .error e => .error e
  | .ok (fs, bs1) =>
    match takeBus bs1 with
    | .error e => .error e
    | .ok (dc, bs2) =>
      match takeBus bs2 with
      | .error e => .error e
      | .ok (em, rest) => noMore (.init fs dc em) rest

/-- TXI's `Instr` operand (R84). -/
def decodeTxi (bs : List Byte) : Except PacketError Instr :=
  match takeBus bs with
  | .error e => .error e
  | .ok (i, rest) => noMore (.txi i) rest

/-- TXD's byte (R84). -/
def decodeTxd : List Byte → Except PacketError Instr
  | b :: rest => noMore (.txd b) rest
  | [] => .error .missingOperand

/-- CURSOR's line, then its column (R84, R86). -/
def decodeCursor (cfg : Config) (bs : List Byte) : Except PacketError Instr :=
  match takeOperand cfg.lineInBits bs with
  | .error e => .error e
  | .ok (line, bs1) =>
    match takeOperand cfg.colBits bs1 with
    | .error e => .error e
    | .ok (col, rest) => noMore (.cursor line col) rest

/-- SETCG's address (R84, R86). -/
def decodeSetcg (cfg : Config) (bs : List Byte) : Except PacketError Instr :=
  match takeOperand cfg.addrInBits bs with
  | .error e => .error e
  | .ok (a, rest) => noMore (.setcg a) rest

/-- SETDD's address (R84, R86). -/
def decodeSetdd (cfg : Config) (bs : List Byte) : Except PacketError Instr :=
  match takeOperand cfg.addrInBits bs with
  | .error e => .error e
  | .ok (a, rest) => noMore (.setdd a) rest

/-- R84: the sixteen host tags. PUTS takes every operand byte; a reserved tag takes none and looks at none (R181). -/
def decodeCommand (cfg : Config) (tag : BitVec 4) (bs : List Byte) : Except PacketError Instr :=
  match tag.toNat with
  | 0 => decodeInit bs
  | 1 => noMore .clearCmd bs
  | 2 => noMore .homeCmd bs
  | 3 => decodeSetcg cfg bs
  | 4 => decodeSetdd cfg bs
  | 5 => decodeCursor cfg bs
  | 6 => .ok (.puts bs)
  | 7 => noMore .status bs
  | 8 => decodeTxi bs
  | 9 => decodeTxd bs
  | 10 => .ok .reservedA
  | 11 => .ok .reservedB
  | 12 => .ok .reservedC
  | 13 => .ok .reservedD
  | 14 => .ok .reservedE
  | _ => .ok .reservedF

/-- The instruction a packet carries, or why it carries none. The configuration gives the operand widths (R86). -/
def decode (cfg : Config) : Packet → Except PacketError Instr
  | .busWord w => decodeBusWord w
  | .command tag bs => decodeCommand cfg tag bs

/-- R80: the ten bits of a bus word. -/
def busWord (rs rw : Bit) (db : Word) : Packet := .busWord (rs ++ rw ++ db)

/-- The packet of an instruction, from the tables of R80, R83, R84 and R87. -/
def encode (cfg : Config) : Instr → Packet
  | .clear => busWord 0 0 (enc .clear)
  | .home => busWord 0 0 (enc .home)
  | .entryMode id s => busWord 0 0 (enc (.entryMode id s))
  | .displayControl d c b => busWord 0 0 (enc (.displayCtl d c b))
  | .shift sc rl => busWord 0 0 (enc (.shift sc rl))
  | .functionSet dl n f => busWord 0 0 (enc (.functionSet dl n f))
  | .setCgramAddress a => busWord 0 0 (enc (.setCgram a))
  | .setDdramAddress a => busWord 0 0 (enc (.setDdram a))
  | .writeData d => busWord 1 0 d
  | .readBfAc bf ac => busWord 0 1 (bf ++ ac)
  | .init fs dc em => .command 0x0#4 (putBus fs ++ putBus dc ++ putBus em)
  | .clearCmd => .command 0x1#4 []
  | .homeCmd => .command 0x2#4 []
  | .setcg a => .command 0x3#4 (putNat (bytesFor cfg.addrInBits) a)
  | .setdd a => .command 0x4#4 (putNat (bytesFor cfg.addrInBits) a)
  | .cursor line col =>
    .command 0x5#4 (putNat (bytesFor cfg.lineInBits) line ++ putNat (bytesFor cfg.colBits) col)
  | .puts bytes => .command 0x6#4 bytes
  | .status => .command 0x7#4 []
  | .txi i => .command 0x8#4 (putBus i)
  | .txd b => .command 0x9#4 [b]
  | .reservedA => .command 0xA#4 []
  | .reservedB => .command 0xB#4 []
  | .reservedC => .command 0xC#4 []
  | .reservedD => .command 0xD#4 []
  | .reservedE => .command 0xE#4 []
  | .reservedF => .command 0xF#4 []

/-- How many operand bytes a host command of each tag has, PUTS (whose list has no bound) at its least. -/
def operandBytes (cfg : Config) (tag : Nat) : Nat :=
  match tag with
  | 0 => 6
  | 3 => bytesFor cfg.addrInBits
  | 4 => bytesFor cfg.addrInBits
  | 5 => bytesFor cfg.lineInBits + bytesFor cfg.colBits
  | 8 => 2
  | 9 => 1
  | _ => 0

/-- The packet whose bits the opcode table numbers as `w`: a row of at most 8 bits is a host tag, a longer one a
ten-bit bus word; the operand bytes the table gives no bits are zero. None where `w` does not fit the row's form. -/
def tablePacket (cfg : Config) (nbits w : Nat) : Option Packet :=
  if nbits ≤ 8 then
    if w < 16 then some (.command (BitVec.ofNat 4 w) (List.replicate (operandBytes cfg w) 0#8)) else none
  else if nbits ≤ 16 then
    if w < 1024 then some (.busWord (BitVec.ofNat 10 w)) else none
  else none

/-- The instruction the decoder reads from an opcode-table word, at the operand widths of R5's defaults. -/
def decodeTableWord (nbits w : Nat) : Option Instr :=
  match tablePacket Config.atReset nbits w with
  | none => none
  | some p =>
    match decode Config.atReset p with
    | .error _ => none
    | .ok i => some i

end Sys2Proof
end

