-- ==== Sys2Proof/Machine/State.lean ====
section
/-! DEFINITION. The machine's state as plain data: the block's state (10_state.md R22 to R26, R35), the host's part
of the interface (R21, R28, R33, R34), the controller observer (20_memory.md R66, 10_state.md R32) and the
environment's pending answers (42_transport.md R141, R152). -/

namespace Sys2Proof.Machine

/-- The data lines of a parallel transaction: `Bits(width)` of R9, with the width. -/
inductive PtData where
  | d4 (n : Nibble)
  | d8 (b : Byte)
deriving DecidableEq, Repr

/-- `Event` of R9: a parallel transaction, an I2C transaction, a delay request (R27) or a read cycle (R152). -/
inductive Event where
  | pt (rs rw : Bit) (data : PtData)
  | it (addr : Target) (byte : Byte)
  | delayReq (ms : Nat)
  | readCycle (rs : Bit)
deriving DecidableEq, Repr

/-- `st.INIT_STATE` (R24). -/
inductive InitState where
  | uninit
  | ready
  | halted
deriving DecidableEq, Repr

/-- The eight fault codes of R200. -/
inductive FaultCode where
  | invalidAddress
  | invalidLineIndex
  | transportFailure
  | readUnsupported
  | notReady
  | reInit
  | invalidConfig
  | illegalCommand
deriving DecidableEq, Repr

/-- Which operand an `InvalidConfig` fault names (R200, "which operand"). -/
inductive ConfigOperand where
  | fs
  | dc
  | em
  | i
deriving DecidableEq, Repr

/-- A fault as it is raised: its cause with the information R200 records. A transport failure holds both indexes the
spec names: in the list given to `Xmit` (R141) and within the command (R200); see notes/assumptions/7.md. -/
inductive Raised where
  | invalidAddress (a : Nat)
  | invalidLineIndex (line : Nat)
  | transportFailure (inList inCommand : Nat)
  | readUnsupported
  | notReady (tag : Nat)
  | reInit
  | invalidConfig (which : ConfigOperand)
  | illegalCommand (tag : Nat)
deriving DecidableEq, Repr

/-- The status of a command (R28). -/
inductive Status where
  | ok
  | fault (f : Raised)
deriving DecidableEq, Repr

/-- The read result of R29. -/
structure ReadResult where
  bf : Bit
  ac : BitVec 7
deriving DecidableEq, Repr

/-- What the host gets back for one command (R28, R33). -/
structure Response where
  status : Status
  result : Option ReadResult
deriving DecidableEq, Repr

/-- The address space the controller's data writes go to (R66). -/
inductive Space where
  | ddram
  | cgram
deriving DecidableEq, Repr

/-- The controller observer of R66; `none` is the spec's `UNKNOWN`. -/
structure Observer where
  ac : Option (BitVec 7)
  space : Option Space
  id : Option Bit
deriving DecidableEq, Repr

/-- Which half of a byte the controller takes next over a four-bit bus (R32 item 2). -/
inductive NibbleHalf where
  | high
  | low
deriving DecidableEq, Repr

/-- Every field `UNKNOWN`: the observer at power-up and after an incomplete frame (R66, R232). -/
def Observer.unknown : Observer := ⟨none, none, none⟩

/-- The machine's state.
Block (R35): `cfg`, `initState`, `faults`, `firstFault` (`none` is the spec's 0), `trace`.
Host (R21, R34): `program`, the position `k`, and the `responses` so far.
Controller, outside the block (R32, R66): `observer`, its interface width `ctlWidth` and the half of a byte it takes
next, `nibblePhase` (`none` where unknown; notes/assumptions/10.md and 22.md).
Environment (the model's own, notes/assumptions/5.md): `sinkAnswers` and `samples` are the sink's answers and the
sampled bytes still to come, oldest first; past their end a draw is a free value numbered by `draws`. -/
structure State where
  cfg : Config
  initState : InitState
  faults : List FaultCode
  firstFault : Option FaultCode
  trace : List Event
  program : List Packet
  k : Nat
  responses : List Response
  observer : Observer
  ctlWidth : Option IfaceWidth
  nibblePhase : Option NibbleHalf
  sinkAnswers : List Bool
  samples : List Byte
  draws : Nat
deriving DecidableEq, Repr

/-- Why the machine can take no step at all. Every fault of the spec (R200) is a status returned to the host and so
a NEXT state; none of them is here. -/
inductive Fault where
  /-- Raised by `step` where the host's command list is exhausted: the run has ended (R34). Safe: no command exists. -/
  | endOfRun
  /-- Raised by `step` where the state's configuration is not valid: no instance exists, so no step does (R206,
  R231). Safe: no run reaches such a state. -/
  | noInstance
deriving DecidableEq, Repr

/-- Why what the host handed over is no instruction. -/
inductive Refusal where
  /-- Raised by an arm of `exec` whose instruction has no meaning yet; no arm does. Safe. -/
  | notModelled (mnemonic : String)
  /-- Raised by `step` where the packet is no bus word and no host command of the spec (R89, R92, D6). Safe. -/
  | undecodable (e : PacketError)
deriving DecidableEq, Repr

/-- The state a configuration constructs (R35, R230), the controller just powered up (R232: 8 bits wide, all its other
state unknown), and nothing yet handed over by the host or the environment. -/
def State.fresh (cfg : Config) : State where
  cfg := cfg
  initState := .uninit
  faults := []
  firstFault := none
  trace := []
  program := []
  k := 0
  responses := []
  observer := Observer.unknown
  ctlWidth := some .w8
  nibblePhase := none
  sinkAnswers := []
  samples := []
  draws := 0

/-- The machine right after construction (R230) with the model's own choice of configuration
(notes/assumptions/1.md). -/
def State.reset : State := State.fresh Config.atReset

end Sys2Proof.Machine
end

