-- ==== Sys2Proof/Machine/Frames.lean ====
section
/-! DEFINITION. The transport multiplexer's frames (42_transport.md R142 to R149): pure functions of the
configuration and of the byte carried. -/

namespace Sys2Proof.Machine

/-- `b[7:4]` (R126). -/
def highNibble (b : Byte) : Nibble := b.extractLsb' 4 4

/-- `b[3:0]` (R126). -/
def lowNibble (b : Byte) : Nibble := b.extractLsb' 0 4

/-- R142. -/
def framePar8 (rs : Bit) (b : Word) : List Event := [.pt rs 0#1 (.d8 b)]

/-- R143: high nibble first (R53). -/
def framePar4 (rs : Bit) (b : Word) : List Event :=
  [.pt rs 0#1 (.d4 (highNibble b)), .pt rs 0#1 (.d4 (lowNibble b))]

/-- The BL bit of an I2C instance. A valid I2C configuration gives it (R6); `0` stands where none is given, which
only a parallel instance may do and none of its frames reads (notes/assumptions/11.md). -/
def blBit (cfg : Config) : Bit :=
  match cfg.backlight with
  | some b => b
  | none => 0#1

/-- One signal at its position in an I2C byte (R144). -/
def signalAt (v : Bit) (pos : Nat) : Byte := zext8 v <<< pos

/-- R144 `i2c_pack`: R/W is 0 in every byte. -/
def i2cPack (cfg : Config) (rs en : Bit) (n : Nibble) : Byte :=
  signalAt rs cfg.i2cMap.rs ||| signalAt 0#1 cfg.i2cMap.rw ||| signalAt en cfg.i2cMap.en
    ||| signalAt (blBit cfg) cfg.i2cMap.bl
    ||| signalAt (n.extractLsb' 0 1) cfg.i2cMap.d0 ||| signalAt (n.extractLsb' 1 1) cfg.i2cMap.d1
    ||| signalAt (n.extractLsb' 2 1) cfg.i2cMap.d2 ||| signalAt (n.extractLsb' 3 1) cfg.i2cMap.d3

/-- R145: each nibble with EN=1, then with EN=0. -/
def frameI2c (cfg : Config) (rs : Bit) (b : Word) : List Event :=
  [.it cfg.target (i2cPack cfg rs 1#1 (highNibble b)), .it cfg.target (i2cPack cfg rs 0#1 (highNibble b)),
   .it cfg.target (i2cPack cfg rs 1#1 (lowNibble b)), .it cfg.target (i2cPack cfg rs 0#1 (lowNibble b))]

/-- The frame of `SendL(rs, b)`, the logical path (R146). I2C is always four bits wide (R6). -/
def logicalFrame (cfg : Config) (rs : Bit) (b : Word) : List Event :=
  match cfg.transport, cfg.ifaceWidth with
  | .parallel, .w8 => framePar8 rs b
  | .parallel, .w4 => framePar4 rs b
  | .i2c, _ => frameI2c cfg rs b

/-- The frame of `Send8(b)`, the 8-bit path (R147): at parallel width 4 only the high nibble crosses. -/
def eightBitFrame (cfg : Config) (b : Word) : List Event :=
  match cfg.transport, cfg.ifaceWidth with
  | .parallel, .w8 => framePar8 0#1 b
  | .parallel, .w4 => [.pt 0#1 0#1 (.d4 (highNibble b))]
  | .i2c, _ => frameI2c cfg 0#1 b

/-- One call of the external bus-write primitive (R140, R148, R152). -/
inductive SinkCall where
  /-- `write(target, bytes, length)`, an I2C write. -/
  | write (target : Target) (bytes : List Byte) (length : Nat)
  /-- One strobed write to the pin map: EN is raised and lowered around it (R148). -/
  | strobe (target : Target) (rs rw : Bit) (data : PtData)
  /-- One read cycle with R/W=1 (R152). -/
  | sample (target : Target) (rs : Bit)
deriving DecidableEq, Repr

/-- R140: the one call `Emit` makes of the sink for an event; a delay request makes none (R27). -/
def sinkCall (cfg : Config) : Event → Option SinkCall
  | .pt rs rw data => some (.strobe cfg.target rs rw data)
  | .it _ byte => some (.write cfg.target [byte] 1)
  | .delayReq _ => none
  | .readCycle rs => some (.sample cfg.target rs)

end Sys2Proof.Machine
end

