-- ==== Sys2Proof/Machine/Observe.lean ====
section
/-! DEFINITION. The controller observer (20_memory.md R66) and the controller's interface width (10_state.md R32):
the controller's state outside the block, as far as the spec gives it. No rule of the block reads it. -/

namespace Sys2Proof.Machine

/-- R66 `step(ac, up)` in CGRAM: modulo 64. -/
def stepCgram (ac : BitVec 7) (up : Bit) : BitVec 7 :=
  if up = 1#1 then BitVec.ofNat 7 ((ac.toNat + 1) % 64) else BitVec.ofNat 7 ((ac.toNat + 63) % 64)

/-- R66 `step(ac, up)` in DDRAM: known only inside the two display lines. -/
def stepDdram (ac : BitVec 7) (up : Bit) : Option (BitVec 7) :=
  if up = 1#1 then
    if ac.toNat ≤ 0x26 ∨ (0x40 ≤ ac.toNat ∧ ac.toNat ≤ 0x66) then some (ac + 1) else none
  else
    if (0x01 ≤ ac.toNat ∧ ac.toNat ≤ 0x27) ∨ (0x41 ≤ ac.toNat ∧ ac.toNat ≤ 0x67) then some (ac - 1) else none

/-- R66 `step(ac, up)`: unknown where `ac`, `up` or `space` is. -/
def stepAc (o : Observer) (up : Option Bit) : Option (BitVec 7) :=
  match o.ac, up, o.space with
  | some ac, some up, some .cgram => some (stepCgram ac up)
  | some ac, some up, some .ddram => stepDdram ac up
  | _, _, _ => none

/-- R66, one row per instruction class. -/
def observeInstr (o : Observer) : BusInstr → Observer
  | .clear => ⟨some 0, some .ddram, some 1⟩
  | .home => { o with ac := some 0, space := some .ddram }
  | .entryMode id _ => { o with id := some id }
  | .displayCtl _ _ _ => o
  | .shift sc rl => if sc = 0#1 then { o with ac := stepAc o (some rl) } else o
  | .functionSet _ _ _ => o
  | .setCgram a => { o with ac := some (a.setWidth 7), space := some .cgram }
  | .setDdram a => { o with ac := some a, space := some .ddram }

/-- R66: the update for one complete frame carrying `b` with register select `rs`. A word that is no instruction
(R88) has no row and changes nothing. -/
def observeFrame (o : Observer) (rs : Bit) (b : Word) : Observer :=
  if rs = 1#1 then { o with ac := stepAc o o.id }
  else
    match dec b with
    | some i => observeInstr o i
    | none => o

/-- R32: the controller's interface width changes only when a function-set word is latched (R82: DL=1 is 8 bits). -/
def widthAfterInstr (w : Option IfaceWidth) : BusInstr → Option IfaceWidth
  | .functionSet dl _ _ => some (if dl = 1#1 then .w8 else .w4)
  | .clear => w
  | .home => w
  | .entryMode _ _ => w
  | .displayCtl _ _ _ => w
  | .shift _ _ => w
  | .setCgram _ => w
  | .setDdram _ => w

/-- R32 for one complete frame carrying `b` with register select `rs`. -/
def widthAfter (w : Option IfaceWidth) (rs : Bit) (b : Word) : Option IfaceWidth :=
  if rs = 1#1 then w
  else
    match dec b with
    | some i => widthAfterInstr w i
    | none => w

end Sys2Proof.Machine
end

