-- ==== Sys2Proof/Machine/Ops.lean ====
section
/-! DEFINITION. The shared operations: validity and construction of an instance, emitting and transmitting (R8, R27,
R141), raising a fault (60_exceptions.md R201), completing a command (R28), and the host's command list (R21). -/

namespace Sys2Proof.Machine

/-- What executing an instruction answers. -/
abbrev Answer := Host.Outcome State Fault Refusal

/-- The eight positions of an I2C map. -/
def mapPositions (m : I2cMap) : List Nat := [m.rs, m.rw, m.en, m.bl, m.d0, m.d1, m.d2, m.d3]

/-- The clauses of R6. `IFACE_WIDTH ∈ {4, 8}` is in its type. -/
def clausesOfR6 (cfg : Config) : Bool :=
  decide (1 ≤ cfg.lineCount) && decide (cfg.lineOffsets.length = cfg.lineCount)
    && cfg.lineOffsets.all (fun o => decide (o ≤ 127))
    && (decide (cfg.transport = .parallel) || (decide (cfg.ifaceWidth = .w4) && cfg.backlight.isSome))
    && (mapPositions cfg.i2cMap).all (fun p => decide (p < 8)) && decide (mapPositions cfg.i2cMap).Nodup

/-- A configuration that constructs an instance: R6's clauses, and R22's legal values of the three operand widths
(notes/assumptions/11.md). No bound is put on INIT_DELAYS_MS and no constraint on FS8 (DESIGN CHOICE, notes/assumptions/23.md and 25.md). -/
def configValid (cfg : Config) : Bool :=
  clausesOfR6 cfg && decide (1 ≤ cfg.addrInBits) && decide (1 ≤ cfg.colBits) && decide (1 ≤ cfg.lineInBits)

/-- R230, R231, R206: construction gives the reset state, or no instance for an invalid configuration. -/
def construct (cfg : Config) : Option State := if configValid cfg then some (State.fresh cfg) else none

/-- The number of a fault code (R200). -/
def FaultCode.number : FaultCode → Nat
  | .invalidAddress => 1
  | .invalidLineIndex => 2
  | .transportFailure => 3
  | .readUnsupported => 4
  | .notReady => 5
  | .reInit => 6
  | .invalidConfig => 7
  | .illegalCommand => 8

/-- `code(F)` of R201. -/
def Raised.code : Raised → FaultCode
  | .invalidAddress _ => .invalidAddress
  | .invalidLineIndex _ => .invalidLineIndex
  | .transportFailure _ _ => .transportFailure
  | .readUnsupported => .readUnsupported
  | .notReady _ => .notReady
  | .reInit => .reInit
  | .invalidConfig _ => .invalidConfig
  | .illegalCommand _ => .illegalCommand

/-- The number a command returns (R28): 0 for `OK`, else the code of its fault. -/
def Status.number : Status → Nat
  | .ok => 0
  | .fault f => f.code.number

/-- `st.FIRST_FAULT` as R25 numbers it. -/
def firstFaultNumber (s : State) : Nat :=
  match s.firstFault with
  | none => 0
  | some c => c.number

/-- All fault codes, in the order of their numbers. -/
def allCodes : List FaultCode :=
  [.invalidAddress, .invalidLineIndex, .transportFailure, .readUnsupported, .notReady, .reInit, .invalidConfig,
   .illegalCommand]

/-- `st.FAULTS ∪ {c}` of R201. The set is kept as the list of its codes in numerical order (notes/assumptions/19.md). -/
def insertCode (c : FaultCode) (l : List FaultCode) : List FaultCode :=
  allCodes.filter (fun d => d = c || l.contains d)

/-- The canonical form of a fault set: its codes in numerical order, none twice. -/
def faultSetWf (l : List FaultCode) : Bool := decide (l = allCodes.filter (fun d => l.contains d))

/-- R25, R201: record a fault; the first one recorded stays the first. -/
def recordFault (c : FaultCode) (s : State) : State :=
  { s with
    faults := insertCode c s.faults
    firstFault := match s.firstFault with
      | none => some c
      | some d => some d }

/-- The host gets a response (R28, R33). -/
def respond (r : Response) (s : State) : State := { s with responses := s.responses ++ [r] }

/-- The state after `raise F(info)` (R201): the fault is recorded and its status returned; nothing else changes. -/
def raised (f : Raised) (s : State) : State := respond ⟨.fault f, none⟩ (recordFault f.code s)

/-- R201, R204: taking a fault, the block's only exception entry. It is a NEXT state, and control returns to the
host: there is no handler, so no return from one either (R205). -/
def raise (f : Raised) (s : State) : Answer := .next (raised f s)

/-- `return` of R8: the command ends with status `OK` and, for a read, its result. -/
def complete (result : Option ReadResult) (s : State) : Answer := .next (respond ⟨.ok, result⟩ s)

/-- `Emit(e)` of R8, R140: the event joins the end of the trace and goes to the sink (`sinkCall`). -/
def emit (e : Event) (s : State) : State := { s with trace := s.trace ++ [e] }

/-- The sink's answer to a transaction (R141): always ok where `SINK_CAN_FAIL` is false, else a draw. -/
def askSink (s : State) : Bool × State :=
  if s.cfg.sinkCanFail then
    match s.sinkAnswers with
    | a :: rest => (a, { s with sinkAnswers := rest })
    | [] => (Config.sinkAnswer s.draws, { s with draws := s.draws + 1 })
  else (true, s)

/-- `v <- draw(Bits(8))` of R152, R177: the byte the controller drives in a read cycle. -/
def sampleBus (s : State) : Byte × State :=
  match s.samples with
  | v :: rest => (v, { s with samples := rest })
  | [] => (Config.sampledByte s.draws, { s with draws := s.draws + 1 })

/-- What a transport failure does before it raises (R141): the block halts. The frame is incomplete, so the observer,
the controller's width and its nibble phase are unknown (R66, R32; notes/assumptions/9.md). -/
def halt (s : State) : State :=
  { s with initState := .halted, observer := Observer.unknown, ctlWidth := none, nibblePhase := none }

/-- `Xmit(list)` of R141, from index `i` of the list on; `base` transactions of the command came before the list. -/
def xmit (base : Nat) : Nat → List Event → State → State × Option Raised
  | _, [], s => (s, none)
  | i, t :: ts, s =>
    match askSink (emit t s) with
    | (true, s1) => xmit base (i + 1) ts s1
    | (false, s1) => (halt s1, some (.transportFailure i (base + i)))

/-- One thing a command does on its way: a delay request (R27), or one frame carrying a byte to a register. -/
inductive Move where
  | delay (ms : Nat)
  | send (rs : Bit) (b : Word) (frame : List Event)
deriving DecidableEq, Repr

/-- `SendL(rs, b)` (R146). -/
def sendL (cfg : Config) (rs : Bit) (b : Word) : Move := .send rs b (logicalFrame cfg rs b)

/-- `Send8(b)` (R147); its RS is always 0. -/
def send8 (cfg : Config) (b : Word) : Move := .send 0#1 b (eightBitFrame cfg b)

/-- INIT has completed (R171, R24). The controller then pairs nibbles from a high half on (R238), as far as the block
can know (R234; DEDUCED, notes/assumptions/10.md). The phase is high whatever INIT's own frames sent before (DESIGN CHOICE,
notes/assumptions/22.md; on I2C 24.md). -/
def becomeReady (s : State) : State := { s with initState := .ready, nibblePhase := some .high }

/-- A complete frame reached the controller (R66, R32). It counts as complete and rightly read whatever the controller's
width is (DESIGN CHOICE, notes/assumptions/21.md; INIT's 8-bit path on I2C, 24.md), and moves no nibble phase
(DESIGN CHOICE, notes/assumptions/22.md). -/
def delivered (rs : Bit) (b : Word) (s : State) : State :=
  { s with observer := observeFrame s.observer rs b, ctlWidth := widthAfter s.ctlWidth rs b }

/-- A command's moves in order, ending at the first transport failure (R141, R201). -/
def runMoves : Nat → List Move → State → State × Option Raised
  | _, [], s => (s, none)
  | base, .delay ms :: rest, s => runMoves base rest (emit (.delayReq ms) s)
  | base, .send rs b frame :: rest, s =>
    match xmit base 0 frame s with
    | (s1, none) => runMoves (base + frame.length) rest (delivered rs b s1)
    | (s1, some f) => (s1, some f)

/-- Send a command's moves and return `OK`, or take the transport failure. -/
def transmit (moves : List Move) (s : State) : Answer :=
  match runMoves 0 moves s with
  | (s1, none) => complete none s1
  | (s1, some f) => raise f s1

/-- R170 `ready_check`: the fault every command except INIT meets unless the block is ready. -/
def readyCheck (tag : Nat) (s : State) : Option Raised :=
  match s.initState with
  | .ready => none
  | .uninit => some (.notReady tag)
  | .halted => some (.notReady tag)

/-- The host's next command (R21): entry `k` of its list, none where the list is exhausted (R34). -/
def fetch (s : State) : Option Packet := s.program[s.k]?

/-- R21: the host's position advances by 1 after each command whatever its status. -/
def advance (s : State) : State := { s with k := s.k + 1 }

/-- `advance` where a step answers a next state. -/
def advanceAnswer : Answer → Answer
  | .next s => .next (advance s)
  | .fault f => .fault f
  | .refused r => .refused r

/-- Put `p` where the host's position is, keeping the rest of its list. -/
def placeNext (p : Packet) (s : State) : State :=
  { s with
    program := s.program.take s.k ++ List.replicate (s.k - s.program.length) p ++ p :: s.program.drop (s.k + 1) }

/-- R34: what is observed of a run. -/
structure Observation where
  trace : List Event
  responses : List Response
  initState : InitState
  faults : List FaultCode
  firstFault : Option FaultCode
deriving DecidableEq, Repr

/-- R34. -/
def observation (s : State) : Observation := ⟨s.trace, s.responses, s.initState, s.faults, s.firstFault⟩

end Sys2Proof.Machine
end

