-- ==== Sys2Proof/Machine/Operands.lean ====
section
/-! DEFINITION. Operand forms: the address resolver (41_address_resolver.md R120 to R122), the string operand of
PUTS (R176), and the operand checks of INIT and TXI (43_commands.md R171, R179). -/

namespace Sys2Proof.Machine

/-- R120 `resolve_cgram(a)`. -/
def resolveCgram (cfg : Config) (a : Nat) : Except Raised BusInstr :=
  if cfg.addrPolicy = .reject ∧ 63 < a then .error (.invalidAddress a)
  else .ok (.setCgram (BitVec.ofNat 6 (a % 64)))

/-- R121 `resolve_ddram(a)`. -/
def resolveDdram (cfg : Config) (a : Nat) : Except Raised BusInstr :=
  if cfg.addrPolicy = .reject ∧ 127 < a then .error (.invalidAddress a)
  else .ok (.setDdram (BitVec.ofNat 7 (a % 128)))

/-- R122 `resolve_cursor(line, col)`: the line check comes first. A valid configuration has an offset for every line
below `LINE_COUNT` (R6); one that has none faults as a line out of range does (notes/assumptions/11.md). -/
def resolveCursor (cfg : Config) (line col : Nat) : Except Raised BusInstr :=
  if cfg.lineCount ≤ line then .error (.invalidLineIndex line)
  else
    match cfg.lineOffsets[line]? with
    | none => .error (.invalidLineIndex line)
    | some off => resolveDdram cfg (col + off)

/-- R176: the bytes PUTS sends, those before the first terminator, or all where there is none. -/
def putsBytes (cfg : Config) (s : List Byte) : List Byte := s.takeWhile (fun b => b != cfg.terminator)

/-- `dl_cfg` of 43_commands.md: 1 where the interface is 8 bits wide, else 0. -/
def dlCfg (cfg : Config) : Bit :=
  match cfg.ifaceWidth with
  | .w8 => 1#1
  | .w4 => 0#1

/-- The DL field of a function-set instruction (R82); no other class has one. -/
def dlField : BusInstr → Option Bit
  | .functionSet dl _ _ => some dl
  | .clear => none
  | .home => none
  | .entryMode _ _ => none
  | .displayCtl _ _ _ => none
  | .shift _ _ => none
  | .setCgram _ => none
  | .setDdram _ => none

/-- R171's operand checks: the class of each operand, then the DL bit. Which operand the fault names is read in
operand order (notes/assumptions/8.md, DEDUCED). -/
def initCheck (cfg : Config) (fs dc em : BusInstr) : Option Raised :=
  if fs.cls ≠ .functionSet then some (.invalidConfig .fs)
  else if dc.cls ≠ .displayCtl then some (.invalidConfig .dc)
  else if em.cls ≠ .entryMode then some (.invalidConfig .em)
  else if dlField fs ≠ some (dlCfg cfg) then some (.invalidConfig .fs)
  else none

/-- R179's check: a function-set word whose DL disagrees with the configured width is refused. -/
def txiCheck (cfg : Config) (i : BusInstr) : Option Raised :=
  match dlField i with
  | none => none
  | some dl => if dl = dlCfg cfg then none else some (.invalidConfig .i)

/-- R171 step 1: the fallback, three delays each before one 8-bit function-set word. -/
def fallbackMoves (cfg : Config) : List Move :=
  if cfg.initFallback then
    [.delay cfg.initDelaysMs.first, send8 cfg cfg.fs8, .delay cfg.initDelaysMs.second, send8 cfg cfg.fs8,
     .delay cfg.initDelaysMs.third, send8 cfg cfg.fs8]
  else []

/-- R171: everything INIT emits. -/
def initMoves (cfg : Config) (fs dc em : BusInstr) : List Move :=
  fallbackMoves cfg ++
    [send8 cfg (enc fs), sendL cfg 0#1 (enc fs), sendL cfg 0#1 (enc dc), sendL cfg 0#1 (enc em)]

/-- R176: one data frame per character, in order. -/
def putsMoves (cfg : Config) (s : List Byte) : List Move := (putsBytes cfg s).map (fun b => sendL cfg 1#1 b)

end Sys2Proof.Machine
end

