-- ==== Sys2Proof/Machine/Flags.lean ====
section
/-! DEFINITION. The block has no condition codes (10_state.md R30); its flags are the busy flag of a read result,
decoded here (40_instruction_table.md R109), and the fault record of Machine/Ops.lean (R25). -/

namespace Sys2Proof.Machine

/-- R109 `decode_status(v)`. -/
def decodeStatus (v : Byte) : ReadResult := ⟨v.extractLsb' 7 1, v.extractLsb' 0 7⟩

/-- The instruction-register read cycle (R152): one `ReadCycle` event, after which `sample` gives the byte on the
bus, whose decoding (R109) is the result. Taken by the sink it leaves the observer, the controller's width and its nibble
phase as they were (DESIGN CHOICE, notes/assumptions/26.md). -/
def readCycle (sample : State → Byte × State) (s : State) : Answer :=
  match xmit 0 0 [.readCycle 0#1] s with
  | (s1, some f) => raise f s1
  | (s1, none) =>
    match sample s1 with
    | (v, s2) => complete (some (decodeStatus v)) s2

/-- R177 after its ready check: what a status read does in each read mode. -/
def statusRead (sample : State → Byte × State) (s : State) : Answer :=
  match s.cfg.readMode, s.cfg.transport with
  | .unsupported, _ => raise .readUnsupported s
  | .stubZero, _ => complete (some ⟨0#1, 0#7⟩) s
  | .sampled, .i2c => raise .readUnsupported s
  | .sampled, .parallel => readCycle sample s

end Sys2Proof.Machine
end

