-- ==== Sys2Proof/Machine/Words.lean ====
section
/-! DEFINITION. The ten bus words of the opcode table. A word is carried by the transport capability interface of R3:
`transmit_instruction(w) = SendL(0, w)` and `transmit_data(b) = SendL(1, b)` (R146), which check nothing (R100 to
R108, "Exceptions: none") but can meet a sink failure (R141). See notes/assumptions/3.md. -/

namespace Sys2Proof.Machine

/-- `transmit_instruction` (R146) of an encoded instruction (R87). -/
def transmitInstruction (i : BusInstr) (s : State) : Answer := transmit [sendL s.cfg 0#1 (enc i)] s

/-- `transmit_data` (R146). -/
def transmitData (b : Byte) (s : State) : Answer := transmit [sendL s.cfg 1#1 b] s

/-- CLEAR, R100. -/
def execClear (s : State) : Answer := transmitInstruction .clear s

/-- HOME, R101. -/
def execHome (s : State) : Answer := transmitInstruction .home s

/-- ENTRY_MODE, R102. -/
def execEntryMode (id sh : Bit) (s : State) : Answer := transmitInstruction (.entryMode id sh) s

/-- DISPLAY_CONTROL, R103. -/
def execDisplayControl (d c b : Bit) (s : State) : Answer := transmitInstruction (.displayCtl d c b) s

/-- SHIFT, R104. -/
def execShift (sc rl : Bit) (s : State) : Answer := transmitInstruction (.shift sc rl) s

/-- FUNCTION_SET, R105: no check here, "the commands that send it" check DL. -/
def execFunctionSet (dl n f : Bit) (s : State) : Answer := transmitInstruction (.functionSet dl n f) s

/-- SET_CGRAM_ADDRESS, R106. -/
def execSetCgramAddress (a : BitVec 6) (s : State) : Answer := transmitInstruction (.setCgram a) s

/-- SET_DDRAM_ADDRESS, R107. -/
def execSetDdramAddress (a : BitVec 7) (s : State) : Answer := transmitInstruction (.setDdram a) s

/-- WRITE_DATA, R108: the byte unmodified, with RS=1. -/
def execWriteData (d : Byte) (s : State) : Answer := transmitData d s

/-- READ_BF_AC, R109 and R83: the read cycle whose sampled byte is the word's own DB7..DB0, where a byte can be
sampled at all (R89, R177; notes/assumptions/6.md). -/
def execReadBfAc (bf : Bit) (ac : BitVec 7) (s : State) : Answer := statusRead (fun t => (bf ++ ac, t)) s

end Sys2Proof.Machine
end

