-- ==== Sys2Proof/Machine/Commands.lean ====
section
/-! DEFINITION. The ten host commands (43_commands.md R170 to R180), each one atomic step (R20). The checks run in
the order of 60_exceptions.md R203. -/

namespace Sys2Proof.Machine

/-- A command that first makes `ready_check` (R170) and then goes on. -/
def whenReady (tag : Nat) (body : State → Answer) (s : State) : Answer :=
  match readyCheck tag s with
  | some f => raise f s
  | none => body s

/-- Send the Set-Address instruction the resolver gives, or take its fault (R174, R175, R178). -/
def sendResolved (r : Except Raised BusInstr) (s : State) : Answer :=
  match r with
  | .error f => raise f s
  | .ok i => transmit [sendL s.cfg 0#1 (enc i)] s

/-- INIT, R171: its state checks, its operand checks, its frames, and then `READY`. -/
def execInit (fs dc em : BusInstr) (s : State) : Answer :=
  match s.initState with
  | .halted => raise (.notReady 0) s
  | .ready => raise .reInit s
  | .uninit =>
    match initCheck s.cfg fs dc em with
    | some f => raise f s
    | none =>
      match runMoves 0 (initMoves s.cfg fs dc em) s with
      | (s1, some f) => raise f s1
      | (s1, none) => complete none (becomeReady s1)

/-- CLEAR (`clear_display`), R172. -/
def execClearCmd (s : State) : Answer :=
  whenReady 1 (fun t => transmit [sendL t.cfg 0#1 (enc .clear)] t) s

/-- HOME (`return_home`), R173. -/
def execHomeCmd (s : State) : Answer :=
  whenReady 2 (fun t => transmit [sendL t.cfg 0#1 (enc .home)] t) s

/-- SETCG, R174. -/
def execSetcg (a : Nat) (s : State) : Answer :=
  whenReady 3 (fun t => sendResolved (resolveCgram t.cfg a) t) s

/-- SETDD, R175. -/
def execSetdd (a : Nat) (s : State) : Answer :=
  whenReady 4 (fun t => sendResolved (resolveDdram t.cfg a) t) s

/-- CURSOR, R178. -/
def execCursor (line col : Nat) (s : State) : Answer :=
  whenReady 5 (fun t => sendResolved (resolveCursor t.cfg line col) t) s

/-- PUTS, R176. -/
def execPuts (bytes : List Byte) (s : State) : Answer :=
  whenReady 6 (fun t => transmit (putsMoves t.cfg bytes) t) s

/-- STATUS, R177. -/
def execStatus (s : State) : Answer := whenReady 7 (statusRead sampleBus) s

/-- TXI once the block is ready (R179): the DL check, then the instruction's frame. -/
def sendChecked (i : BusInstr) (s : State) : Answer :=
  match txiCheck s.cfg i with
  | some f => raise f s
  | none => transmit [sendL s.cfg 0#1 (enc i)] s

/-- TXI, R179. -/
def execTxi (i : BusInstr) (s : State) : Answer := whenReady 8 (sendChecked i) s

/-- TXD, R180: the terminator is sent like any other byte. -/
def execTxd (b : Byte) (s : State) : Answer :=
  whenReady 9 (fun t => transmit [sendL t.cfg 1#1 b] t) s

end Sys2Proof.Machine
end

