-- ==== Sys2Proof/Machine/Reserved.lean ====
section
/-! DEFINITION. The six reserved host tags (43_commands.md R181): each raises `IllegalCommand`, whatever the
sequencer's state is. -/

namespace Sys2Proof.Machine

/-- R181. -/
def illegalCommand (tag : Nat) (s : State) : Answer := raise (.illegalCommand tag) s

/-- Tag 0xA, R181. -/
def execReservedA (s : State) : Answer := illegalCommand 0xA s

/-- Tag 0xB, R181. -/
def execReservedB (s : State) : Answer := illegalCommand 0xB s

/-- Tag 0xC, R181. -/
def execReservedC (s : State) : Answer := illegalCommand 0xC s

/-- Tag 0xD, R181. -/
def execReservedD (s : State) : Answer := illegalCommand 0xD s

/-- Tag 0xE, R181. -/
def execReservedE (s : State) : Answer := illegalCommand 0xE s

/-- Tag 0xF, R181. -/
def execReservedF (s : State) : Answer := illegalCommand 0xF s

end Sys2Proof.Machine
end

