-- ==== Sys2Proof/Machine/Dispatch.lean ====
section
/-! DEFINITION. One arm per constructor of `Instr`, each one call of that instruction's meaning. -/

namespace Sys2Proof.Machine

def exec (i : Instr) (s : State) : Host.Outcome State Fault Refusal :=
  match i with
  | .clear => Sys2Proof.Machine.execClear s
  | .home => Sys2Proof.Machine.execHome s
  | .entryMode id sh => Sys2Proof.Machine.execEntryMode id sh s
  | .displayControl d c b => Sys2Proof.Machine.execDisplayControl d c b s
  | .shift sc rl => Sys2Proof.Machine.execShift sc rl s
  | .functionSet dl n f => Sys2Proof.Machine.execFunctionSet dl n f s
  | .setCgramAddress a => Sys2Proof.Machine.execSetCgramAddress a s
  | .setDdramAddress a => Sys2Proof.Machine.execSetDdramAddress a s
  | .writeData d => Sys2Proof.Machine.execWriteData d s
  | .readBfAc bf ac => Sys2Proof.Machine.execReadBfAc bf ac s
  | .init fs dc em => Sys2Proof.Machine.execInit fs dc em s
  | .clearCmd => Sys2Proof.Machine.execClearCmd s
  | .homeCmd => Sys2Proof.Machine.execHomeCmd s
  | .setcg a => Sys2Proof.Machine.execSetcg a s
  | .setdd a => Sys2Proof.Machine.execSetdd a s
  | .cursor line col => Sys2Proof.Machine.execCursor line col s
  | .puts bytes => Sys2Proof.Machine.execPuts bytes s
  | .status => Sys2Proof.Machine.execStatus s
  | .txi b => Sys2Proof.Machine.execTxi b s
  | .txd b => Sys2Proof.Machine.execTxd b s
  | .reservedA => Sys2Proof.Machine.execReservedA s
  | .reservedB => Sys2Proof.Machine.execReservedB s
  | .reservedC => Sys2Proof.Machine.execReservedC s
  | .reservedD => Sys2Proof.Machine.execReservedD s
  | .reservedE => Sys2Proof.Machine.execReservedE s
  | .reservedF => Sys2Proof.Machine.execReservedF s

end Sys2Proof.Machine
end

