-- ==== Sys2Proof/Machine/Step.lean ====
section
/-! DEFINITION. One step of the machine (10_state.md R20, R21): the host's next command is decoded, executed as one
atomic step, and the host's position advances. -/

namespace Sys2Proof.Machine

/-- R20, R21, R34, R206: no step without an instance, none past the end of the host's list; otherwise the packet at
the host's position is decoded and executed, and the position advances whatever the status. -/
def step (s : State) : Host.Outcome State Fault Refusal :=
  if configValid s.cfg then
    match fetch s with
    | none => .fault .endOfRun
    | some p =>
      match decode s.cfg p with
      | .error e => .refused (.undecodable e)
      | .ok i => advanceAnswer (exec i s)
  else .fault .noInstance

/-- `s` with the instruction of an opcode-table word at the host's position: the host hands the block that
instruction next (notes/assumptions/2.md). A word that fits no row leaves `s` as it is. -/
def State.withFetchWord (s : State) (nbits w : Nat) : State :=
  match tablePacket s.cfg nbits w with
  | none => s
  | some p => placeNext p s

end Sys2Proof.Machine
end

