-- ==== Sys2Proof/Machine/Assembler.lean ====
section
/-! DEFINITION. The assembler of 30_encoding.md R92 and the pseudo-instructions of R93: a host-side notation for the
host's command list (R21). No step of the machine reads it. What R92 does not fix is in notes/assumptions/16.md. -/

namespace Sys2Proof.Machine

/-- An `<instr>` of R92: a constructor spelling, or a raw byte decoded by R88. -/
inductive AsmInstr where
  | spelled (i : BusInstr)
  | raw (b : Nat)
deriving DecidableEq, Repr

/-- One line of R92, or one pseudo-instruction of R93. Numbers are as written, before any width check. -/
inductive AsmLine where
  | init (fs dc em : AsmInstr)
  | clear
  | home
  | setcg (a : Nat)
  | setdd (a : Nat)
  | cursor (line col : Nat)
  | putsText (text : List Char)
  | putsBytes (bytes : List Nat)
  | status
  | txi (i : AsmInstr)
  | txd (b : Nat)
  | entry (id s : Nat)
  | display (d c b : Nat)
  | shift (sc rl : Nat)
  | func (dl n f : Nat)
  | putc (b : Nat)
  | glyph (k : Nat) (rows : List Nat)
deriving DecidableEq, Repr

/-- Why the assembler refuses a line. -/
inductive AsmError where
  /-- The raw byte 0x00 (R88, R92). -/
  | zeroByte
  /-- A raw byte with a don't-care bit set (R92). -/
  | dontCareBit
  /-- A raw byte in the wrong class for its INIT position (R92). -/
  | wrongClass
  /-- An operand wider than its field (R92, R86). -/
  | wideOperand
  /-- A character of a quoted text that is no ASCII character (R92). -/
  | notAscii
  /-- GLYPH without exactly eight rows (R93). -/
  | glyphRows
  /-- A line that is none of the forms of R92 and R93. -/
  | badLine
deriving DecidableEq, Repr

/-- R92: a raw byte is an instruction unless it is 0x00 or has a don't-care bit set. -/
def asmRaw (n : Nat) : Except AsmError BusInstr :=
  if n < 256 then
    match dec (BitVec.ofNat 8 n) with
    | none => .error .zeroByte
    | some i => if enc i = BitVec.ofNat 8 n then .ok i else .error .dontCareBit
  else .error .wideOperand

/-- R92: an instruction operand outside INIT. -/
def asmInstr : AsmInstr → Except AsmError BusInstr
  | .spelled i => .ok i
  | .raw n => asmRaw n

/-- R92: an INIT operand; a raw byte must be in the class of its position, a spelling need not be (the block then
faults, R171). -/
def asmInitOperand (c : BusClass) : AsmInstr → Except AsmError BusInstr
  | .spelled i => .ok i
  | .raw n =>
    match asmRaw n with
    | .error e => .error e
    | .ok i => if i.cls = c then .ok i else .error .wrongClass

/-- A number that must fit a one-bit field. -/
def asmBit (n : Nat) : Except AsmError Bit := if n < 2 then .ok (BitVec.ofNat 1 n) else .error .wideOperand

/-- A number that must fit a byte. -/
def asmByte (n : Nat) : Except AsmError Byte := if n < 256 then .ok (BitVec.ofNat 8 n) else .error .wideOperand

/-- A list of numbers that must each fit a byte. -/
def asmBytes : List Nat → Except AsmError (List Byte)
  | [] => .ok []
  | n :: ns =>
    match asmByte n, asmBytes ns with
    | .ok b, .ok bs => .ok (b :: bs)
    | .error e, _ => .error e
    | .ok _, .error e => .error e

/-- R92: the ASCII bytes of a quoted text; the terminator is put after them by `assembleLine`. -/
def asmText : List Char → Except AsmError (List Byte)
  | [] => .ok []
  | c :: cs =>
    if c.toNat < 128 then
      match asmText cs with
      | .ok bs => .ok (BitVec.ofNat 8 c.toNat :: bs)
      | .error e => .error e
    else .error .notAscii

/-- R92: an operand wider than its field (R86) is refused. -/
def asmChecked (cfg : Config) (i : Instr) : Except AsmError (List Instr) :=
  if wellFormed cfg i then .ok [i] else .error .wideOperand

/-- R92 and R93: the host commands a line stands for. -/
def assembleLine (cfg : Config) : AsmLine → Except AsmError (List Instr)
  | .init fs dc em => do
    let fs ← asmInitOperand .functionSet fs
    let dc ← asmInitOperand .displayCtl dc
    let em ← asmInitOperand .entryMode em
    asmChecked cfg (.init fs dc em)
  | .clear => asmChecked cfg .clearCmd
  | .home => asmChecked cfg .homeCmd
  | .setcg a => asmChecked cfg (.setcg a)
  | .setdd a => asmChecked cfg (.setdd a)
  | .cursor line col => asmChecked cfg (.cursor line col)
  | .putsText text => do
    let bytes ← asmText text
    asmChecked cfg (.puts (bytes ++ [cfg.terminator]))
  | .putsBytes ns => do
    let bytes ← asmBytes ns
    asmChecked cfg (.puts bytes)
  | .status => asmChecked cfg .status
  | .txi i => do
    let i ← asmInstr i
    asmChecked cfg (.txi i)
  | .txd n => do
    let b ← asmByte n
    asmChecked cfg (.txd b)
  | .entry id s => do
    let id ← asmBit id
    let s ← asmBit s
    asmChecked cfg (.txi (.entryMode id s))
  | .display d c b => do
    let d ← asmBit d
    let c ← asmBit c
    let b ← asmBit b
    asmChecked cfg (.txi (.displayCtl d c b))
  | .shift sc rl => do
    let sc ← asmBit sc
    let rl ← asmBit rl
    asmChecked cfg (.txi (.shift sc rl))
  | .func dl n f => do
    let dl ← asmBit dl
    let n ← asmBit n
    let f ← asmBit f
    asmChecked cfg (.txi (.functionSet dl n f))
  | .putc n => do
    let b ← asmByte n
    asmChecked cfg (.txd b)
  | .glyph k rows =>
    if k < 8 then
      if rows.length = 8 then do
        let rows ← asmBytes rows
        let select ← asmChecked cfg (.setcg (8 * k))
        .ok (select ++ rows.map .txd)
      else .error .glyphRows
    else .error .wideOperand

/-- A program's commands (R21, R92), or the first line's refusal. -/
def assemble (cfg : Config) : List AsmLine → Except AsmError (List Instr)
  | [] => .ok []
  | l :: ls => do
    let here ← assembleLine cfg l
    let rest ← assemble cfg ls
    .ok (here ++ rest)

/-- The host hands the block a program (R33): its commands become the list `step` fetches from. -/
def loadProgram (is : List Instr) (s : State) : State := { s with program := is.map (encode s.cfg), k := 0 }

/-- A token of a line of R92's text. -/
inductive Token where
  | name (cs : String)
  | num (n : Nat)
  | text (cs : List Char)
  | comma
  | lpar
  | rpar
  | lbracket
  | rbracket
  | equals
deriving DecidableEq, Repr

/-- Letters, digits and the underscore make words and numbers. -/
def isWordChar (c : Char) : Bool := c.isAlphanum || c = '_'

/-- The value of a hexadecimal digit. -/
def hexDigit (c : Char) : Option Nat :=
  if c.isDigit then some (c.toNat - 48)
  else if 97 ≤ c.toNat ∧ c.toNat ≤ 102 then some (c.toNat - 87)
  else if 65 ≤ c.toNat ∧ c.toNat ≤ 70 then some (c.toNat - 55)
  else none

/-- The digits of a number in a base, most significant first, after what is read already. -/
def readDigits (base : Nat) (acc : Nat) : List Char → Option Nat
  | [] => some acc
  | c :: cs =>
    match hexDigit c with
    | some d => if d < base then readDigits base (base * acc + d) cs else none
    | none => none

/-- R92: "numbers are decimal or 0x hexadecimal"; anything else is a name. A word that begins with a digit and is
no number is no token. -/
def wordToken (cs : List Char) : Option Token :=
  match cs with
  | [] => none
  | '0' :: 'x' :: [] => none
  | '0' :: 'x' :: hex => (readDigits 16 0 hex).map .num
  | c :: rest =>
    if c.isDigit then (readDigits 10 0 (c :: rest)).map .num else some (.name (String.ofList cs))

/-- The token of a punctuation character. -/
def punctuation (c : Char) : Option Token :=
  if c = ',' then some .comma
  else if c = '(' then some .lpar
  else if c = ')' then some .rpar
  else if c = '[' then some .lbracket
  else if c = ']' then some .rbracket
  else if c = '=' then some .equals
  else none

/-- Where the reader of a line stands: between tokens, inside a word, or inside a quoted text (characters read so
far, last first). -/
inductive LexState where
  | between
  | word (rev : List Char)
  | quoted (rev : List Char)
deriving DecidableEq, Repr

/-- The token a word ends as, put before the tokens after it. -/
def closeWord (rev : List Char) (rest : Option (List Token)) : Option (List Token) :=
  match wordToken rev.reverse, rest with
  | some t, some ts => some (t :: ts)
  | _, _ => none

/-- The tokens of one line. `;` begins a comment and blanks separate. -/
def lex : LexState → List Char → Option (List Token)
  | .between, [] => some []
  | .word rev, [] => closeWord rev (some [])
  | .quoted _, [] => none
  | .quoted rev, c :: cs =>
    if c = '"' then (lex .between cs).map (.text rev.reverse :: ·) else lex (.quoted (c :: rev)) cs
  | .between, c :: cs =>
    if c = ';' then some []
    else if c = ' ' || c = '\t' then lex .between cs
    else if c = '"' then lex (.quoted []) cs
    else if isWordChar c then lex (.word [c]) cs
    else
      match punctuation c with
      | some t => (lex .between cs).map (t :: ·)
      | none => none
  | .word rev, c :: cs =>
    if isWordChar c then lex (.word (c :: rev)) cs
    else if c = ';' then closeWord rev (some [])
    else if c = ' ' || c = '\t' then closeWord rev (lex .between cs)
    else if c = '"' then closeWord rev (lex (.quoted []) cs)
    else
      match punctuation c with
      | some t => closeWord rev ((lex .between cs).map (t :: ·))
      | none => none

/-- A constructor's arguments up to the closing parenthesis, each `name=number` with the names in order, or each a
plain number (R92, and the spelling of 95_test_vectors.md). No comma may stand after the last one
(notes/assumptions/16.md, DESIGN CHOICE). -/
def parseArgs : List String → List Token → Option (List Nat × List Token)
  | [f], .name g :: .equals :: .num n :: .rpar :: ts => if f = g then some ([n], ts) else none
  | [_], .num n :: .rpar :: ts => some ([n], ts)
  | f :: fs, .name g :: .equals :: .num n :: .comma :: ts =>
    if f = g then (parseArgs fs ts).map (fun r => (n :: r.1, r.2)) else none
  | _ :: fs, .num n :: .comma :: ts => (parseArgs fs ts).map (fun r => (n :: r.1, r.2))
  | _, _ => none

/-- Fields that must each be one bit. -/
def bits : List Nat → Option (List Bit)
  | [] => some []
  | n :: ns => if n < 2 then (bits ns).map (BitVec.ofNat 1 n :: ·) else none

/-- A constructor spelling of R92, from its name and the tokens after its opening parenthesis. -/
def parseCtor (ctor : String) (ts : List Token) : Option (BusInstr × List Token) :=
  if ctor = "EntryMode" then do
    let (ns, rest) ← parseArgs ["id", "s"] ts
    match ← bits ns with
    | [id, s] => some (.entryMode id s, rest)
    | _ => none
  else if ctor = "DisplayCtl" then do
    let (ns, rest) ← parseArgs ["d", "c", "b"] ts
    match ← bits ns with
    | [d, c, b] => some (.displayCtl d c b, rest)
    | _ => none
  else if ctor = "Shift" then do
    let (ns, rest) ← parseArgs ["sc", "rl"] ts
    match ← bits ns with
    | [sc, rl] => some (.shift sc rl, rest)
    | _ => none
  else if ctor = "FunctionSet" then do
    let (ns, rest) ← parseArgs ["dl", "n", "f"] ts
    match ← bits ns with
    | [dl, n, f] => some (.functionSet dl n f, rest)
    | _ => none
  else if ctor = "SetCgram" then do
    match ← parseArgs ["a"] ts with
    | ([a], rest) => if a < 64 then some (.setCgram (BitVec.ofNat 6 a), rest) else none
    | _ => none
  else if ctor = "SetDdram" then do
    match ← parseArgs ["a"] ts with
    | ([a], rest) => if a < 128 then some (.setDdram (BitVec.ofNat 7 a), rest) else none
    | _ => none
  else none

/-- An `<instr>` of R92 and the tokens after it. -/
def parseInstr : List Token → Option (AsmInstr × List Token)
  | .num n :: rest => some (.raw n, rest)
  | .name ctor :: .lpar :: ts => (parseCtor ctor ts).map (fun r => (.spelled r.1, r.2))
  | .name ctor :: rest =>
    if ctor = "Clear" then some (.spelled .clear, rest)
    else if ctor = "Home" then some (.spelled .home, rest)
    else none
  | _ => none

/-- INIT's three operands, to the end of the line. -/
def parseInit (ts : List Token) : Option AsmLine :=
  match parseInstr ts with
  | some (fs, .comma :: ts1) =>
    match parseInstr ts1 with
    | some (dc, .comma :: ts2) =>
      match parseInstr ts2 with
      | some (em, []) => some (.init fs dc em)
      | _ => none
    | _ => none
  | _ => none

/-- Numbers separated by commas, to the end of the line. -/
def parseNumbers : List Token → Option (List Nat)
  | [.num n] => some [n]
  | .num n :: .comma :: ts => (parseNumbers ts).map (n :: ·)
  | _ => none

/-- The numbers of a byte list that is not empty, to its closing bracket and the end of the line. No comma may stand
after the last one (notes/assumptions/16.md, DESIGN CHOICE). -/
def parseByteList : List Token → Option (List Nat)
  | [.num n, .rbracket] => some [n]
  | .num n :: .comma :: ts => (parseByteList ts).map (n :: ·)
  | _ => none

/-- PUTS's operand (R92): a quoted text or a byte list, which may be empty (R176; notes/assumptions/16.md). -/
def parsePuts : List Token → Option AsmLine
  | [.text cs] => some (.putsText cs)
  | [.lbracket, .rbracket] => some (.putsBytes [])
  | .lbracket :: ts => (parseByteList ts).map .putsBytes
  | _ => none

/-- The lines whose operands are numbers only (R92, R93). -/
def numberLine (m : String) (ns : List Nat) : Option AsmLine :=
  match ns with
  | [] =>
    if m = "CLEAR" then some .clear
    else if m = "HOME" then some .home
    else if m = "STATUS" then some .status
    else none
  | [a] =>
    if m = "SETCG" then some (.setcg a)
    else if m = "SETDD" then some (.setdd a)
    else if m = "TXD" then some (.txd a)
    else if m = "PUTC" then some (.putc a)
    else none
  | [a, b] =>
    if m = "CURSOR" then some (.cursor a b)
    else if m = "ENTRY" then some (.entry a b)
    else if m = "SHIFT" then some (.shift a b)
    else none
  | [a, b, c] =>
    if m = "DISPLAY" then some (.display a b c)
    else if m = "FUNC" then some (.func a b c)
    else none
  | k :: rows => if m = "GLYPH" then some (.glyph k rows) else none

/-- One line of R92 or R93 from its tokens. -/
def parseLine : List Token → Option AsmLine
  | [] => none
  | .name m :: ts =>
    if m = "INIT" then parseInit ts
    else if m = "PUTS" then parsePuts ts
    else if m = "TXI" then
      match parseInstr ts with
      | some (i, []) => some (.txi i)
      | _ => none
    else
      match ts with
      | [] => numberLine m []
      | _ :: _ => (parseNumbers ts).bind (numberLine m)
  | _ => none

/-- R92: the host commands of one line of text. -/
def assembleText (cfg : Config) (line : List Char) : Except AsmError (List Instr) :=
  match (lex .between line).bind parseLine with
  | some l => assembleLine cfg l
  | none => .error .badLine

end Sys2Proof.Machine
end

