-- ==== Sys2Proof/Safety.lean ====
section
/-! DEFINITION. What claims speak of: a run without a fault (10_state.md R34), which events an instance can emit, the
invariant of a constructed instance, and the sink's answers to the transactions a command is about to send. -/

namespace Sys2Proof.Machine

/-- R34: "a claim about a run normally takes `st.FAULTS = ∅` at its end as a premise". -/
def faultFree (s : State) : Bool := s.faults.isEmpty

/-- The code of the fault a response reports, if it reports one (R28). -/
def Response.faultCode (r : Response) : Option FaultCode :=
  match r.status with
  | .ok => none
  | .fault f => some f.code

/-- The host commands of R84 and the reserved tags of R89, with their tags; a bus word has none. -/
def hostTag : Instr → Option Nat
  | .clear => none
  | .home => none
  | .entryMode _ _ => none
  | .displayControl _ _ _ => none
  | .shift _ _ => none
  | .functionSet _ _ _ => none
  | .setCgramAddress _ => none
  | .setDdramAddress _ => none
  | .writeData _ => none
  | .readBfAc _ _ => none
  | .init _ _ _ => some 0x0
  | .clearCmd => some 0x1
  | .homeCmd => some 0x2
  | .setcg _ => some 0x3
  | .setdd _ => some 0x4
  | .cursor _ _ => some 0x5
  | .puts _ => some 0x6
  | .status => some 0x7
  | .txi _ => some 0x8
  | .txd _ => some 0x9
  | .reservedA => some 0xA
  | .reservedB => some 0xB
  | .reservedC => some 0xC
  | .reservedD => some 0xD
  | .reservedE => some 0xE
  | .reservedF => some 0xF

/-- The width of a parallel transaction's data. -/
def PtData.width : PtData → IfaceWidth
  | .d4 _ => .w4
  | .d8 _ => .w8

/-- The events an instance can emit: one backend at one width (R151), always writing (R144, R80), to its own target
(R145); read cycles only where R89 and R152 allow them, delays only those of the fallback (R27). -/
def legalEvent (cfg : Config) : Event → Bool
  | .pt _ rw data => decide (cfg.transport = .parallel) && decide (rw = 0#1) && decide (data.width = cfg.ifaceWidth)
  | .it addr byte =>
    decide (cfg.transport = .i2c) && decide (addr = cfg.target) && !byte.getLsbD cfg.i2cMap.rw
      && decide (byte.getLsbD cfg.i2cMap.bl = (blBit cfg).getLsbD 0)
  | .delayReq ms =>
    cfg.initFallback
      && [cfg.initDelaysMs.first, cfg.initDelaysMs.second, cfg.initDelaysMs.third].contains ms
  | .readCycle rs => decide (cfg.transport = .parallel) && decide (cfg.readMode = .sampled) && decide (rs = 0#1)

/-- The fault record is what the responses so far report: the set of their codes, and the first of them (R25). -/
def faultRecordOk (s : State) : Prop :=
  faultSetWf s.faults = true
    ∧ (∀ c, c ∈ s.faults ↔ ∃ r ∈ s.responses, r.faultCode = some c)
    ∧ s.firstFault = s.responses.findSome? Response.faultCode

/-- The observer's counter is a CGRAM address while CGRAM is selected (R50, R66). -/
def observerOk (o : Observer) : Prop := o.space = some .cgram → ∀ ac, o.ac = some ac → ac.toNat < 64

/-- What holds of every state a constructed instance reaches: its configuration is valid (R6), its fault record is
that of its responses (R25), it is halted exactly when a transport failure is recorded (R24),
the controller's nibble phase is high in READY and unknown in every other state (R32, R232; DEDUCED,
notes/assumptions/10.md), every event is one it can emit (R151), the host has one response for each command handed over
(R21, R28), and the observer's counter fits the space it is in (R66). -/
def Inv (s : State) : Prop :=
  configValid s.cfg = true
    ∧ faultRecordOk s
    ∧ (s.initState = .halted ↔ FaultCode.transportFailure ∈ s.faults)
    ∧ (s.initState = .halted → s.cfg.sinkCanFail = true)
    ∧ s.nibblePhase = (if s.initState = .ready then some .high else none)
    ∧ s.trace.all (legalEvent s.cfg) = true
    ∧ s.responses.length = s.k
    ∧ observerOk s.observer

/-- The sink takes the next `n` transactions (R141): it cannot fail, or its next `n` answers are ok. -/
def answersOk (n : Nat) (s : State) : Bool :=
  !s.cfg.sinkCanFail || (decide (n ≤ s.sinkAnswers.length) && (s.sinkAnswers.take n).all id)

/-- The sink's answers still to come once `n` are taken; where the sink cannot fail none is taken (R141). -/
def answersLeft (n : Nat) (s : State) : List Bool := if s.cfg.sinkCanFail then s.sinkAnswers.drop n else s.sinkAnswers

/-- The events of a list of moves. -/
def moveEvents (moves : List Move) : List Event :=
  moves.flatMap fun
    | .delay ms => [.delayReq ms]
    | .send _ _ frame => frame

/-- The frame of a resolved address (R174, R175, R178), nothing where the resolver faults. -/
def resolvedEvents (cfg : Config) : Except Raised BusInstr → List Event
  | .ok i => logicalFrame cfg 0#1 (enc i)
  | .error _ => []

/-- The events of a status read (R177): one read cycle where there is one (R152). -/
def statusEvents (cfg : Config) : List Event :=
  if cfg.readMode = .sampled ∧ cfg.transport = .parallel then [.readCycle 0#1] else []

/-- Everything an instruction emits where no check of it faults and the sink takes every transaction, in order:
R146 for the bus words, R171 to R180 for the host commands. -/
def commandEvents (cfg : Config) : Instr → List Event
  | .clear => logicalFrame cfg 0#1 (enc .clear)
  | .home => logicalFrame cfg 0#1 (enc .home)
  | .entryMode id s => logicalFrame cfg 0#1 (enc (.entryMode id s))
  | .displayControl d c b => logicalFrame cfg 0#1 (enc (.displayCtl d c b))
  | .shift sc rl => logicalFrame cfg 0#1 (enc (.shift sc rl))
  | .functionSet dl n f => logicalFrame cfg 0#1 (enc (.functionSet dl n f))
  | .setCgramAddress a => logicalFrame cfg 0#1 (enc (.setCgram a))
  | .setDdramAddress a => logicalFrame cfg 0#1 (enc (.setDdram a))
  | .writeData d => logicalFrame cfg 1#1 d
  | .readBfAc _ _ => statusEvents cfg
  | .init fs dc em => moveEvents (initMoves cfg fs dc em)
  | .clearCmd => logicalFrame cfg 0#1 (enc .clear)
  | .homeCmd => logicalFrame cfg 0#1 (enc .home)
  | .setcg a => resolvedEvents cfg (resolveCgram cfg a)
  | .setdd a => resolvedEvents cfg (resolveDdram cfg a)
  | .cursor line col => resolvedEvents cfg (resolveCursor cfg line col)
  | .puts bytes => (putsBytes cfg bytes).flatMap (logicalFrame cfg 1#1)
  | .status => statusEvents cfg
  | .txi i => logicalFrame cfg 0#1 (enc i)
  | .txd b => logicalFrame cfg 1#1 b
  | .reservedA => []
  | .reservedB => []
  | .reservedC => []
  | .reservedD => []
  | .reservedE => []
  | .reservedF => []

/-- The number of transactions a list of moves emits: delay requests are none (R141). -/
def moveTransactions (moves : List Move) : Nat :=
  (moves.map fun
    | .delay _ => 0
    | .send _ _ frame => frame.length).sum

/-- The observer after each frame of a list of moves is delivered (R66). -/
def moveObserver (o : Observer) (moves : List Move) : Observer :=
  moves.foldl (fun o m => match m with
    | .delay _ => o
    | .send rs b _ => observeFrame o rs b) o

/-- The controller's width after each frame of a list of moves is delivered (R32). -/
def moveWidth (w : Option IfaceWidth) (moves : List Move) : Option IfaceWidth :=
  moves.foldl (fun w m => match m with
    | .delay _ => w
    | .send rs b _ => widthAfter w rs b) w

/-- A transaction crosses to the sink; a delay request is none (R9, R27). -/
def isTransaction : Event → Bool
  | .pt _ _ _ => true
  | .it _ _ => true
  | .delayReq _ => false
  | .readCycle _ => true

/-- The four data bits of an I2C byte, each read at its position in the map, are `n` (R144, R150). -/
def dataNibbleIs (m : I2cMap) (x : Byte) (n : Nibble) : Prop :=
  x.getLsbD m.d0 = n.getLsbD 0 ∧ x.getLsbD m.d1 = n.getLsbD 1 ∧ x.getLsbD m.d2 = n.getLsbD 2
    ∧ x.getLsbD m.d3 = n.getLsbD 3

end Sys2Proof.Machine
end

