-- ==== Sys2Proof/Certificates/Slice0/Obligations.lean ====
section
/-! DEFINITION. The statements of this model, rule by rule. -/

open Sys2Proof Sys2Proof.Machine

/-! ### Encoding: 30_encoding.md and 40_instruction_table.md -/

/-- R87: every word is its class base with its fields at their places (an OR that equals the sum, R126), and no
word is 0x00. The values are the spec's own from general knowledge (notes/assumptions/12.md). -/
def Obligations.EncodedWordIsBasePlusFields : Prop :=
  (enc .clear).toNat = 0x01 ∧ (enc .home).toNat = 0x02
    ∧ (∀ id s : Bit, (enc (.entryMode id s)).toNat = 0x04 + 2 * id.toNat + s.toNat)
    ∧ (∀ d c b : Bit, (enc (.displayCtl d c b)).toNat = 0x08 + 4 * d.toNat + 2 * c.toNat + b.toNat)
    ∧ (∀ sc rl : Bit, (enc (.shift sc rl)).toNat = 0x10 + 8 * sc.toNat + 4 * rl.toNat)
    ∧ (∀ dl n f : Bit, (enc (.functionSet dl n f)).toNat = 0x20 + 16 * dl.toNat + 8 * n.toNat + 4 * f.toNat)
    ∧ (∀ a : BitVec 6, (enc (.setCgram a)).toNat = 0x40 + a.toNat)
    ∧ (∀ a : BitVec 7, (enc (.setDdram a)).toNat = 0x80 + a.toNat)

/-- R88: decoding a byte. 0x00 is the only invalid byte; the class is the highest set bit; the fields are the bits
below it; `dec` inverts `enc`, and `enc` inverts `dec` where the don't-care bits are 0. -/
def Obligations.ByteDecodeReadsHighestBit : Prop :=
  (∀ w : Word, dec w = none ↔ w = 0x00#8)
    ∧ (∀ (w : Word) (i : BusInstr), dec w = some i →
        w.getLsbD i.cls.bit = true ∧ (∀ j, i.cls.bit < j → w.getLsbD j = false)
          ∧ (match i with
            | .clear => True
            | .home => True
            | .entryMode id s => id.getLsbD 0 = w.getLsbD 1 ∧ s.getLsbD 0 = w.getLsbD 0
            | .displayCtl d c b => d.getLsbD 0 = w.getLsbD 2 ∧ c.getLsbD 0 = w.getLsbD 1 ∧ b.getLsbD 0 = w.getLsbD 0
            | .shift sc rl => sc.getLsbD 0 = w.getLsbD 3 ∧ rl.getLsbD 0 = w.getLsbD 2
            | .functionSet dl n f =>
              dl.getLsbD 0 = w.getLsbD 4 ∧ n.getLsbD 0 = w.getLsbD 3 ∧ f.getLsbD 0 = w.getLsbD 2
            | .setCgram a => a.toNat = w.toNat % 64
            | .setDdram a => a.toNat = w.toNat % 128)
          ∧ ((match i.cls with
              | .home => w.getLsbD 0 = false
              | .shift => w.getLsbD 1 = false ∧ w.getLsbD 0 = false
              | .functionSet => w.getLsbD 1 = false ∧ w.getLsbD 0 = false
              | _ => True) → enc i = w))
    ∧ ∀ i : BusInstr, dec (enc i) = some i

/-- R124: under either policy, a resolved address word masked to its field gives the address back. -/
def Obligations.ResolvedWordMaskedIsAddress : Prop :=
  ∀ (cfg : Config) (v : Nat),
    (v < 64 → ∃ i, resolveCgram cfg v = .ok i ∧ (enc i &&& 0x3F#8).toNat = v)
      ∧ (v < 128 → ∃ i, resolveDdram cfg v = .ok i ∧ (enc i &&& 0x7F#8).toNat = v)

/-- R109: the top bit of a sampled byte is the busy flag and the rest the address counter, and a read word carries
both. -/
def Obligations.SampledByteSplitsIntoFlagAndCounter : Prop :=
  ∀ (cfg : Config) (v : Byte),
    (decodeStatus v).bf.toNat = v.toNat / 128 ∧ (decodeStatus v).ac.toNat = v.toNat % 128
      ∧ decode cfg (.busWord (0#1 ++ 1#1 ++ v)) = .ok (.readBfAc (decodeStatus v).bf (decodeStatus v).ac)

/-- R80, R83, R89: RS and R/W choose the form of a bus word: a data write carries its byte unmodified, read data and
the word 0x00 are no instruction, and the other words are the bus instructions of `dec`. -/
def Obligations.BusWordFormsBySelectAndDirection : Prop :=
  ∀ (cfg : Config) (v : Word),
    decode cfg (.busWord (1#1 ++ 0#1 ++ v)) = .ok (.writeData v)
      ∧ decode cfg (.busWord (1#1 ++ 1#1 ++ v)) = .error .readData
      ∧ decode cfg (.busWord (0#1 ++ 0#1 ++ 0x00#8)) = .error .noInstruction
      ∧ ∀ i : BusInstr, dec v = some i → decode cfg (.busWord (0#1 ++ 0#1 ++ v)) = .ok i.toInstr

/-- Every well-formed instruction, bus word or host command, with every operand at every value its encoding admits,
is read back from its packet. The operand bytes of host commands are the model's layout (notes/assumptions/4.md). -/
def Obligations.DecodeOfEncodeIsIdentity : Prop :=
  ∀ (cfg : Config) (i : Instr), wellFormed cfg i = true → decode cfg (encode cfg i) = .ok i

/-- R86: the decoder gives no operand wider than the configuration allows. -/
def Obligations.DecodedInstructionIsWellFormed : Prop :=
  ∀ (cfg : Config) (p : Packet) (i : Instr), decode cfg p = .ok i → wellFormed cfg i = true

/-- Words written out bit by bit from R81, R83 and R84 decode to the instructions they stand for. -/
def Obligations.SpecWordsDecodeAsWritten : Prop :=
  decodeTableWord 16 0b0000000001 = some .clear
    ∧ decodeTableWord 16 0b0000000011 = some .home
    ∧ decodeTableWord 16 0b0000000110 = some (.entryMode 1 0)
    ∧ decodeTableWord 16 0b0000101000 = some (.functionSet 0 1 0)
    ∧ decodeTableWord 16 0b0011000000 = some (.setDdramAddress 64)
    ∧ decodeTableWord 16 0b1001001000 = some (.writeData 0x48)
    ∧ decodeTableWord 16 0b0110000101 = some (.readBfAc 1 5)
    ∧ decodeTableWord 8 0b0001 = some .clearCmd
    ∧ decodeTableWord 8 0b0111 = some .status
    ∧ decodeTableWord 8 0b1111 = some .reservedF
    ∧ decodeTableWord 16 0b0000000000 = none

/-- R84, R89: a host command's tag decides which command it is, every tag has one, and each command is sent under
its own tag. -/
def Obligations.HostTagDecidesCommand : Prop :=
  (∀ (cfg : Config) (tag : BitVec 4) (ops : List Byte) (i : Instr),
      decode cfg (.command tag ops) = .ok i → hostTag i = some tag.toNat)
    ∧ (∀ (cfg : Config) (tag : BitVec 4), ∃ ops i, decode cfg (.command tag ops) = .ok i)
    ∧ ∀ (cfg : Config) (i : Instr) (t : Nat), hostTag i = some t →
        ∃ ops, encode cfg i = .command (BitVec.ofNat 4 t) ops

/-! ### Address resolver: 41_address_resolver.md -/

/-- R120. -/
def Obligations.CgramAddressResolves : Prop :=
  ∀ (cfg : Config) (a : Nat),
    (cfg.addrPolicy = .reject → 63 < a → resolveCgram cfg a = .error (.invalidAddress a))
      ∧ (cfg.addrPolicy = .mask ∨ a ≤ 63 →
          ∃ x : BitVec 6, x.toNat = a % 64 ∧ resolveCgram cfg a = .ok (.setCgram x))

/-- R121. -/
def Obligations.DdramAddressResolves : Prop :=
  ∀ (cfg : Config) (a : Nat),
    (cfg.addrPolicy = .reject → 127 < a → resolveDdram cfg a = .error (.invalidAddress a))
      ∧ (cfg.addrPolicy = .mask ∨ a ≤ 127 →
          ∃ x : BitVec 7, x.toNat = a % 128 ∧ resolveDdram cfg a = .ok (.setDdram x))

/-- R122, R123: the line is checked first, under both policies; then the column and the line's offset are added
without wrap and resolved; a sum of at most 127 is the DDRAM address itself. -/
def Obligations.CursorAddressResolves : Prop :=
  ∀ (cfg : Config) (line col : Nat), configValid cfg = true →
    (cfg.lineCount ≤ line → resolveCursor cfg line col = .error (.invalidLineIndex line))
      ∧ (line < cfg.lineCount → ∃ off, cfg.lineOffsets[line]? = some off ∧ off ≤ 127
          ∧ resolveCursor cfg line col = resolveDdram cfg (col + off)
          ∧ (off + col ≤ 127 →
              ∃ x : BitVec 7, x.toNat = off + col ∧ resolveCursor cfg line col = .ok (.setDdram x)))

/-! ### Transport: 42_transport.md -/

/-- R142, R111, R149: at parallel width 8 every byte crosses unmodified in one write transaction, with the frame's RS on
the logical path and with RS=0 on the 8-bit path; so an encoded word crosses as it is. -/
def Obligations.Parallel8CarriesRawWord : Prop :=
  ∀ (cfg : Config) (rs : Bit) (b : Word), cfg.transport = .parallel → cfg.ifaceWidth = .w8 →
    logicalFrame cfg rs b = [.pt rs 0#1 (.d8 b)] ∧ eightBitFrame cfg b = [.pt 0#1 0#1 (.d8 b)]

/-- R143, R150: at parallel width 4 a byte crosses as two transactions, high nibble first, both with its RS, and the
two nibbles give the byte back. -/
def Obligations.Parallel4SendsHighNibbleFirst : Prop :=
  ∀ (cfg : Config) (rs : Bit) (b : Word), cfg.transport = .parallel → cfg.ifaceWidth = .w4 →
    ∃ hi lo : Nibble, logicalFrame cfg rs b = [.pt rs 0#1 (.d4 hi), .pt rs 0#1 (.d4 lo)]
      ∧ hi.toNat = b.toNat / 16 ∧ lo.toNat = b.toNat % 16 ∧ hi ++ lo = b

/-- R145, R149, R150: an I2C frame is four bytes to the target, each a write with the backlight bit and the frame's
RS; EN is 1, 0, 1, 0; bytes 1 and 2 carry the high nibble and bytes 3 and 4 the low one. -/
def Obligations.I2cFrameIsFourTaggedNibbleBytes : Prop :=
  ∀ (cfg : Config) (rs : Bit) (b : Word), configValid cfg = true → cfg.transport = .i2c →
    ∃ x1 x2 x3 x4 : Byte,
      logicalFrame cfg rs b = [.it cfg.target x1, .it cfg.target x2, .it cfg.target x3, .it cfg.target x4]
        ∧ (∀ x ∈ [x1, x2, x3, x4], x.getLsbD cfg.i2cMap.rs = rs.getLsbD 0 ∧ x.getLsbD cfg.i2cMap.rw = false
            ∧ cfg.backlight = some (BitVec.ofBool (x.getLsbD cfg.i2cMap.bl)))
        ∧ x1.getLsbD cfg.i2cMap.en = true ∧ x2.getLsbD cfg.i2cMap.en = false
        ∧ x3.getLsbD cfg.i2cMap.en = true ∧ x4.getLsbD cfg.i2cMap.en = false
        ∧ dataNibbleIs cfg.i2cMap x1 (b.extractLsb' 4 4) ∧ dataNibbleIs cfg.i2cMap x2 (b.extractLsb' 4 4)
        ∧ dataNibbleIs cfg.i2cMap x3 (b.extractLsb' 0 4) ∧ dataNibbleIs cfg.i2cMap x4 (b.extractLsb' 0 4)

/-- R144: an I2C byte under the default map. -/
def Obligations.DefaultMapByteValue : Prop :=
  ∀ (cfg : Config) (bl rs en : Bit) (n : Nibble), cfg.i2cMap = {} → cfg.backlight = some bl →
    (i2cPack cfg rs en n).toNat = 128 * bl.toNat + 64 * en.toNat + 16 * rs.toNat + n.toNat

/-- R147: the 8-bit path: the whole byte at parallel width 8, one transaction with the high nibble at width 4, the
full logical frame on I2C; RS is always 0. -/
def Obligations.EightBitPathFrames : Prop :=
  ∀ (cfg : Config) (b : Word),
    (cfg.transport = .parallel → cfg.ifaceWidth = .w8 → eightBitFrame cfg b = [.pt 0#1 0#1 (.d8 b)])
      ∧ (cfg.transport = .parallel → cfg.ifaceWidth = .w4 →
          ∃ hi : Nibble, hi.toNat = b.toNat / 16 ∧ eightBitFrame cfg b = [.pt 0#1 0#1 (.d4 hi)])
      ∧ (cfg.transport = .i2c → eightBitFrame cfg b = logicalFrame cfg 0#1 b)

/-- R140, R27: each I2C transaction is one sink call of length 1 to its target, each parallel one a strobed write to
the pin map; a delay request calls the sink not at all. -/
def Obligations.OneSinkCallPerTransaction : Prop :=
  ∀ (cfg : Config) (byte : Byte) (rs rw : Bit) (data : PtData) (ms : Nat) (e : Event),
    sinkCall cfg (.it cfg.target byte) = some (.write cfg.target [byte] 1)
      ∧ sinkCall cfg (.pt rs rw data) = some (.strobe cfg.target rs rw data)
      ∧ sinkCall cfg (.delayReq ms) = none
      ∧ ((sinkCall cfg e).isSome = true ↔ isTransaction e = true)

/-- R141: `Xmit` sends its whole list where the sink takes it, and never faults where the sink cannot fail; the first
refused transaction stays in the trace, is the last, halts the block and is named in the fault. The indexes are that
in the list (R141) and that in the command (R200), see notes/assumptions/7.md; that the controller's
state is then unknown is notes/assumptions/9.md and 10.md. -/
def Obligations.XmitStopsAtFirstRefusal : Prop :=
  (∀ (base : Nat) (ts : List Event) (s : State), answersOk ts.length s = true →
      xmit base 0 ts s =
        ({ s with trace := s.trace ++ ts, sinkAnswers := answersLeft ts.length s }, none))
    ∧ ∀ (base j : Nat) (ts : List Event) (s : State) (rest : List Bool),
        s.cfg.sinkCanFail = true → j < ts.length → s.sinkAnswers = List.replicate j true ++ false :: rest →
          xmit base 0 ts s =
            ({ s with
                trace := s.trace ++ ts.take (j + 1), initState := .halted, observer := ⟨none, none, none⟩
                ctlWidth := none, nibblePhase := none, sinkAnswers := rest },
              some (.transportFailure j (base + j)))

/-! ### Bus words: what each does where the sink takes its frame -/

/-- R146, R66, R32: each of the eight instruction words (CLEAR, HOME, ENTRY_MODE, DISPLAY_CONTROL, SHIFT, FUNCTION_SET,
SET_CGRAM_ADDRESS, SET_DDRAM_ADDRESS) completes in every state: its frame joins the trace, the observer and the
controller's width take their updates, `OK` is returned, and nothing else changes. Running a bus word in every state is
the model's choice (notes/assumptions/3.md), and so are the observer and the width it leaves in a halted block
(notes/assumptions/10.md) and where the controller's width is not the configured one (notes/assumptions/21.md). -/
def Obligations.InstructionWordsComplete : Prop :=
  ∀ (s : State) (i : BusInstr), answersOk (logicalFrame s.cfg 0#1 (enc i)).length s = true →
    exec i.toInstr s = .next
      { s with
        trace := s.trace ++ logicalFrame s.cfg 0#1 (enc i)
        responses := s.responses ++ [⟨.ok, none⟩]
        observer := observeInstr s.observer i
        ctlWidth := match i with
          | .functionSet dl _ _ => some (if dl = 1#1 then .w8 else .w4)
          | _ => s.ctlWidth
        sinkAnswers := answersLeft (logicalFrame s.cfg 0#1 (enc i)).length s }

/-- R108, R146, R66: WRITE_DATA completes in every state: its byte crosses unmodified with RS=1 and the observer's
counter steps; nothing else changes. Running a bus word in every state is the model's choice (notes/assumptions/3.md), and
so is the observer it leaves in a halted block (notes/assumptions/10.md) and where the controller's width is not the
configured one (notes/assumptions/21.md). -/
def Obligations.DataWordCompletes : Prop :=
  ∀ (s : State) (d : Byte), answersOk (logicalFrame s.cfg 1#1 d).length s = true →
    exec (.writeData d) s = .next
      { s with
        trace := s.trace ++ logicalFrame s.cfg 1#1 d
        responses := s.responses ++ [⟨.ok, none⟩]
        observer := ⟨stepAc s.observer s.observer.id, s.observer.space, s.observer.id⟩
        sinkAnswers := answersLeft (logicalFrame s.cfg 1#1 d).length s }

/-- R109, R89, R152: READ_BF_AC in each read mode, in every state. Where a read cycle exists it is one `ReadCycle` event,
and the result is the word's own flag and counter. In the other modes it faults `ReadUnsupported` in UNSUPPORTED and in
SAMPLED on I2C, and returns zeroes with no event in STUB_ZERO. Every clause rests on the model's reading
(notes/assumptions/6.md): that the word's own byte is the sample, that no ready check is made, also in UNINIT and HALTED
(R177 makes one for STATUS), and that the other modes answer as STATUS does there. That a read cycle leaves what is known
of the controller as it was is notes/assumptions/26.md. -/
def Obligations.ReadWordCompletes : Prop :=
  ∀ (s : State) (bf : Bit) (ac : BitVec 7),
    (s.cfg.readMode = .sampled → s.cfg.transport = .parallel → answersOk 1 s = true →
      exec (.readBfAc bf ac) s = .next
        { s with
          trace := s.trace ++ [.readCycle 0#1]
          responses := s.responses ++ [⟨.ok, some ⟨bf, ac⟩⟩]
          sinkAnswers := answersLeft 1 s })
      ∧ (s.cfg.readMode = .unsupported → exec (.readBfAc bf ac) s = .next (raised .readUnsupported s))
      ∧ (s.cfg.readMode = .sampled → s.cfg.transport = .i2c →
          exec (.readBfAc bf ac) s = .next (raised .readUnsupported s))
      ∧ (s.cfg.readMode = .stubZero → exec (.readBfAc bf ac) s = .next
          { s with responses := s.responses ++ [⟨.ok, some ⟨0#1, 0#7⟩⟩] })

/-! ### Host commands: 43_commands.md

Where a statement below gives the observer (R66), the frame counts as rightly read whatever the controller's width is,
which a bus word can have changed: the model's choice, notes/assumptions/21.md. -/

/-- R171, R235: INIT from UNINIT with operands of their classes and the configured DL: the fallback's three delays
and words where it is on, the function-set word by the 8-bit path and again by the logical path, then the other two
words; `OK` is returned and the block is READY. Of the controller, the observer takes FS8 three times where the fallback
is on and then the entry-mode word's I/D bit, its width is the configured one, and its nibble phase is high. No other
field changes. The nibble phase is the model's reading (notes/assumptions/10.md and 22.md), the observer's update by FS8
at parallel width 4 is notes/assumptions/17.md, and taking each frame as rightly read is notes/assumptions/21.md, on I2C
for the 8-bit path's frames 24.md. -/
def Obligations.InitCompletes : Prop :=
  ∀ (s : State) (n f d c b id sh : Bit) (frames : List Event) (o : Observer), s.initState = .uninit →
    frames =
      (if s.cfg.initFallback then
        [.delayReq s.cfg.initDelaysMs.first] ++ eightBitFrame s.cfg s.cfg.fs8
          ++ [.delayReq s.cfg.initDelaysMs.second] ++ eightBitFrame s.cfg s.cfg.fs8
          ++ [.delayReq s.cfg.initDelaysMs.third] ++ eightBitFrame s.cfg s.cfg.fs8
      else [])
        ++ eightBitFrame s.cfg (enc (.functionSet (dlCfg s.cfg) n f))
        ++ logicalFrame s.cfg 0#1 (enc (.functionSet (dlCfg s.cfg) n f))
        ++ logicalFrame s.cfg 0#1 (enc (.displayCtl d c b)) ++ logicalFrame s.cfg 0#1 (enc (.entryMode id sh)) →
    o =
      (if s.cfg.initFallback then
        observeFrame (observeFrame (observeFrame s.observer 0#1 s.cfg.fs8) 0#1 s.cfg.fs8) 0#1 s.cfg.fs8
      else s.observer) →
    answersOk (frames.filter isTransaction).length s = true →
      exec (.init (.functionSet (dlCfg s.cfg) n f) (.displayCtl d c b) (.entryMode id sh)) s = .next
        { s with
          initState := .ready
          trace := s.trace ++ frames
          responses := s.responses ++ [⟨.ok, none⟩]
          observer := ⟨o.ac, o.space, some id⟩
          ctlWidth := some s.cfg.ifaceWidth
          nibblePhase := some .high
          sinkAnswers := answersLeft (frames.filter isTransaction).length s }

/-- R171, R203: what INIT refuses, in the order of its checks: a halted block, a second INIT, an operand of the wrong
class, a DL bit that disagrees with the configured width. Which operand the fault names is the model's reading
(notes/assumptions/8.md). -/
def Obligations.InitRefusals : Prop :=
  ∀ (s : State) (fs dc em : BusInstr),
    (s.initState = .halted → exec (.init fs dc em) s = .next (raised (.notReady 0) s))
      ∧ (s.initState = .ready → exec (.init fs dc em) s = .next (raised .reInit s))
      ∧ (s.initState = .uninit →
          (fs.cls ≠ .functionSet → exec (.init fs dc em) s = .next (raised (.invalidConfig .fs) s))
            ∧ (fs.cls = .functionSet → dc.cls ≠ .displayCtl →
                exec (.init fs dc em) s = .next (raised (.invalidConfig .dc) s))
            ∧ (fs.cls = .functionSet → dc.cls = .displayCtl → em.cls ≠ .entryMode →
                exec (.init fs dc em) s = .next (raised (.invalidConfig .em) s))
            ∧ (∀ dl n f, fs = .functionSet dl n f → dc.cls = .displayCtl → em.cls = .entryMode →
                dl ≠ (if s.cfg.ifaceWidth = .w8 then 1#1 else 0#1) →
                  exec (.init fs dc em) s = .next (raised (.invalidConfig .fs) s)))

/-- R170: every command except INIT meets `NotReady` first unless the block is READY, whatever its operands. -/
def Obligations.CommandsOutsideReadyFaultNotReady : Prop :=
  ∀ (s : State) (i : Instr) (t : Nat), hostTag i = some t → 0 < t → t < 10 → s.initState ≠ .ready →
    exec i s = .next (raised (.notReady t) s)

/-- R172: CLEAR sends the word 0x01; the controller's address is then 0 in DDRAM. -/
def Obligations.ClearCommandCompletes : Prop :=
  ∀ s : State, s.initState = .ready → answersOk (logicalFrame s.cfg 0#1 0x01#8).length s = true →
    exec .clearCmd s = .next
      { s with
        trace := s.trace ++ logicalFrame s.cfg 0#1 0x01#8
        responses := s.responses ++ [⟨.ok, none⟩]
        observer := ⟨some 0#7, some .ddram, some 1#1⟩
        sinkAnswers := answersLeft (logicalFrame s.cfg 0#1 0x01#8).length s }

/-- R173: HOME sends the word 0x02. -/
def Obligations.HomeCommandCompletes : Prop :=
  ∀ s : State, s.initState = .ready → answersOk (logicalFrame s.cfg 0#1 0x02#8).length s = true →
    exec .homeCmd s = .next
      { s with
        trace := s.trace ++ logicalFrame s.cfg 0#1 0x02#8
        responses := s.responses ++ [⟨.ok, none⟩]
        observer := ⟨some 0#7, some .ddram, s.observer.id⟩
        sinkAnswers := answersLeft (logicalFrame s.cfg 0#1 0x02#8).length s }

/-- R174: SETCG faults on an address above 63 under REJECT, and otherwise sends 0x40 plus the address modulo 64. -/
def Obligations.SetcgCommand : Prop :=
  ∀ (s : State) (a : Nat), s.initState = .ready →
    (s.cfg.addrPolicy = .reject → 63 < a → exec (.setcg a) s = .next (raised (.invalidAddress a) s))
      ∧ ∀ w : Word, w.toNat = 0x40 + a % 64 → s.cfg.addrPolicy = .mask ∨ a ≤ 63 →
          answersOk (logicalFrame s.cfg 0#1 w).length s = true →
            exec (.setcg a) s = .next
              { s with
                trace := s.trace ++ logicalFrame s.cfg 0#1 w
                responses := s.responses ++ [⟨.ok, none⟩]
                observer := ⟨some (BitVec.ofNat 7 (a % 64)), some .cgram, s.observer.id⟩
                sinkAnswers := answersLeft (logicalFrame s.cfg 0#1 w).length s }

/-- R175: SETDD faults on an address above 127 under REJECT, and otherwise sends 0x80 plus the address modulo 128. -/
def Obligations.SetddCommand : Prop :=
  ∀ (s : State) (a : Nat), s.initState = .ready →
    (s.cfg.addrPolicy = .reject → 127 < a → exec (.setdd a) s = .next (raised (.invalidAddress a) s))
      ∧ ∀ w : Word, w.toNat = 0x80 + a % 128 → s.cfg.addrPolicy = .mask ∨ a ≤ 127 →
          answersOk (logicalFrame s.cfg 0#1 w).length s = true →
            exec (.setdd a) s = .next
              { s with
                trace := s.trace ++ logicalFrame s.cfg 0#1 w
                responses := s.responses ++ [⟨.ok, none⟩]
                observer := ⟨some (BitVec.ofNat 7 (a % 128)), some .ddram, s.observer.id⟩
                sinkAnswers := answersLeft (logicalFrame s.cfg 0#1 w).length s }

/-- R178, R203: CURSOR faults on a line out of range first, then on a sum above 127 under REJECT, and otherwise sends
0x80 plus the sum of the line's offset and the column modulo 128. -/
def Obligations.CursorCommand : Prop :=
  ∀ (s : State) (line col : Nat), s.initState = .ready →
    (s.cfg.lineCount ≤ line → exec (.cursor line col) s = .next (raised (.invalidLineIndex line) s))
      ∧ ∀ off : Nat, line < s.cfg.lineCount → s.cfg.lineOffsets[line]? = some off →
          (s.cfg.addrPolicy = .reject → 127 < col + off →
              exec (.cursor line col) s = .next (raised (.invalidAddress (col + off)) s))
            ∧ ∀ w : Word, w.toNat = 0x80 + (col + off) % 128 → s.cfg.addrPolicy = .mask ∨ col + off ≤ 127 →
                answersOk (logicalFrame s.cfg 0#1 w).length s = true →
                  exec (.cursor line col) s = .next
                    { s with
                      trace := s.trace ++ logicalFrame s.cfg 0#1 w
                      responses := s.responses ++ [⟨.ok, none⟩]
                      observer := ⟨some (BitVec.ofNat 7 ((col + off) % 128)), some .ddram, s.observer.id⟩
                      sinkAnswers := answersLeft (logicalFrame s.cfg 0#1 w).length s }

/-- R176: PUTS sends one data frame for each byte before the first terminator, in order, or for every byte where
there is none; the terminator and what follows it are not sent. -/
def Obligations.PutsSendsBytesBeforeTerminator : Prop :=
  ∀ (s : State) (sent rest : List Byte), s.initState = .ready → s.cfg.terminator ∉ sent →
    rest = [] ∨ rest.head? = some s.cfg.terminator →
      answersOk (sent.flatMap (logicalFrame s.cfg 1#1)).length s = true →
        exec (.puts (sent ++ rest)) s = .next
          { s with
            trace := s.trace ++ sent.flatMap (logicalFrame s.cfg 1#1)
            responses := s.responses ++ [⟨.ok, none⟩]
            observer := sent.foldl (fun o _ => ⟨stepAc o o.id, o.space, o.id⟩) s.observer
            sinkAnswers := answersLeft (sent.flatMap (logicalFrame s.cfg 1#1)).length s }

/-- R177: STATUS in each read mode: it faults where no read cycle exists; the stub returns zeroes with no event; a
read cycle on the parallel bus is one event and its result is the sampled byte decoded, whatever the byte (the next
byte the environment supplies, else the free value of notes/assumptions/5.md). That a read cycle leaves what is known of
the controller as it was is notes/assumptions/26.md. -/
def Obligations.StatusCommandByReadMode : Prop :=
  ∀ s : State, s.initState = .ready →
    (s.cfg.readMode = .unsupported → exec .status s = .next (raised .readUnsupported s))
      ∧ (s.cfg.readMode = .sampled → s.cfg.transport = .i2c → exec .status s = .next (raised .readUnsupported s))
      ∧ (s.cfg.readMode = .stubZero → exec .status s = .next
          { s with responses := s.responses ++ [⟨.ok, some ⟨0#1, 0#7⟩⟩] })
      ∧ (s.cfg.readMode = .sampled → s.cfg.transport = .parallel → answersOk 1 s = true →
          (∀ (v : Byte) (rest : List Byte), s.samples = v :: rest → exec .status s = .next
              { s with
                trace := s.trace ++ [.readCycle 0#1]
                responses := s.responses ++ [⟨.ok, some (decodeStatus v)⟩]
                sinkAnswers := answersLeft 1 s, samples := rest })
            ∧ (s.samples = [] → exec .status s = .next
              { s with
                trace := s.trace ++ [.readCycle 0#1]
                responses := s.responses ++ [⟨.ok, some (decodeStatus (Config.sampledByte s.draws))⟩]
                sinkAnswers := answersLeft 1 s, draws := s.draws + 1 }))

/-- R179: TXI refuses a function-set word whose DL disagrees with the configured width, and sends every other
instruction word. -/
def Obligations.TxiCommand : Prop :=
  ∀ (s : State) (i : BusInstr), s.initState = .ready →
    ((∃ dl n f, i = .functionSet dl n f ∧ dl ≠ (if s.cfg.ifaceWidth = .w8 then 1#1 else 0#1)) →
        exec (.txi i) s = .next (raised (.invalidConfig .i) s))
      ∧ ((∀ dl n f, i = .functionSet dl n f → dl = (if s.cfg.ifaceWidth = .w8 then 1#1 else 0#1)) →
          answersOk (logicalFrame s.cfg 0#1 (enc i)).length s = true →
            exec (.txi i) s = .next
              { s with
                trace := s.trace ++ logicalFrame s.cfg 0#1 (enc i)
                responses := s.responses ++ [⟨.ok, none⟩]
                observer := observeInstr s.observer i
                ctlWidth := if i.cls = .functionSet then some s.cfg.ifaceWidth else s.ctlWidth
                sinkAnswers := answersLeft (logicalFrame s.cfg 0#1 (enc i)).length s })

/-- R180: TXD sends any byte, the terminator too. -/
def Obligations.TxdCommandCompletes : Prop :=
  ∀ (s : State) (b : Byte), s.initState = .ready → answersOk (logicalFrame s.cfg 1#1 b).length s = true →
    exec (.txd b) s = .next
      { s with
        trace := s.trace ++ logicalFrame s.cfg 1#1 b
        responses := s.responses ++ [⟨.ok, none⟩]
        observer := ⟨stepAc s.observer s.observer.id, s.observer.space, s.observer.id⟩
        sinkAnswers := answersLeft (logicalFrame s.cfg 1#1 b).length s }

/-- R181: a reserved tag raises `IllegalCommand` in every state; nothing but the fault record and the response
changes. -/
def Obligations.ReservedTagsAreIllegalCommands : Prop :=
  ∀ s : State,
    exec .reservedA s = .next (raised (.illegalCommand 0xA) s)
      ∧ exec .reservedB s = .next (raised (.illegalCommand 0xB) s)
      ∧ exec .reservedC s = .next (raised (.illegalCommand 0xC) s)
      ∧ exec .reservedD s = .next (raised (.illegalCommand 0xD) s)
      ∧ exec .reservedE s = .next (raised (.illegalCommand 0xE) s)
      ∧ exec .reservedF s = .next (raised (.illegalCommand 0xF) s)

/-! ### Faults: 60_exceptions.md -/

/-- R201: raising a fault adds its code to the fault set, keeps the first fault where there is one, returns the fault
as the status, and changes nothing else. -/
def Obligations.RaiseRecordsTheFault : Prop :=
  ∀ (f : Raised) (s : State),
    raise f s = .next (raised f s)
      ∧ raised f s =
          { s with
            faults := (raised f s).faults
            firstFault := if firstFaultNumber s = 0 then some f.code else s.firstFault
            responses := s.responses ++ [⟨.fault f, none⟩] }
      ∧ ∀ c, c ∈ (raised f s).faults ↔ c ∈ s.faults ∨ c = f.code

/-- R200: the eight codes. -/
def Obligations.FaultCodesAreNumbered : Prop :=
  ∀ a b : Nat, ∀ w : ConfigOperand,
    (Raised.invalidAddress a).code.number = 1 ∧ (Raised.invalidLineIndex a).code.number = 2
      ∧ (Raised.transportFailure a b).code.number = 3 ∧ Raised.readUnsupported.code.number = 4
      ∧ (Raised.notReady a).code.number = 5 ∧ Raised.reInit.code.number = 6
      ∧ (Raised.invalidConfig w).code.number = 7 ∧ (Raised.illegalCommand a).code.number = 8

/-- R202: a fault that is no transport failure comes before the command's first event and changes only the fault
record and the response; a transport failure leaves the first of the events the command emits (`commandEvents`, R146 and
R171 to R180), up to and including the failing transaction, whose index within the command it names, and halts the block.
What becomes unknown of the controller, and the two indexes, are the model's reading (notes/assumptions/7.md, 9.md,
10.md). -/
def Obligations.FaultsArePrecise : Prop :=
  ∀ (i : Instr) (s t : State) (f : Raised) (r : Option ReadResult),
    exec i s = .next t → t.responses = s.responses ++ [⟨.fault f, r⟩] →
      (f.code ≠ .transportFailure → t = raised f s)
        ∧ ∀ p q, f = .transportFailure p q →
            ∃ (ev : List Event) (l : List Bool) (d : Nat),
              ev <+: commandEvents s.cfg i ∧ (ev.filter isTransaction).length = q + 1 ∧ ev.getLast?.map isTransaction = some true ∧ p ≤ q
                ∧ t = raised f
                    { s with
                      trace := s.trace ++ ev, initState := .halted, observer := ⟨none, none, none⟩
                      ctlWidth := none, nibblePhase := none, sinkAnswers := l, draws := d }

/-- R25: the fault record starts empty. A fault adds its code to the set and becomes the first fault where there was
none; a command that ends with `OK` leaves the record as it was; and no instruction removes a code or changes the first
fault: faults are sticky. -/
def Obligations.FaultsAreSticky : Prop :=
  (∀ (cfg : Config) (s : State), construct cfg = some s → s.faults = [] ∧ firstFaultNumber s = 0)
    ∧ ∀ (i : Instr) (s t : State), exec i s = .next t →
        (∀ c ∈ s.faults, c ∈ t.faults) ∧ (∀ c, s.firstFault = some c → t.firstFault = some c)
          ∧ (∀ f r, t.responses = s.responses ++ [⟨.fault f, r⟩] →
              (∀ c, c ∈ t.faults ↔ c ∈ s.faults ∨ c = f.code) ∧ (s.firstFault = none → t.firstFault = some f.code))
          ∧ ∀ r, t.responses = s.responses ++ [⟨.ok, r⟩] → t.faults = s.faults ∧ t.firstFault = s.firstFault

/-- R141, R146, R171 to R180: an instruction that ends with `OK` has emitted all its events (`commandEvents`), each
once and in order, whatever the sink's answers were. That a bus word is an instruction is notes/assumptions/3.md. -/
def Obligations.OkMeansEveryEventWasEmitted : Prop :=
  ∀ (i : Instr) (s t : State) (r : Option ReadResult),
    exec i s = .next t → t.responses = s.responses ++ [⟨.ok, r⟩] → t.trace = s.trace ++ commandEvents s.cfg i

/-! ### The whole machine: 10_state.md, 20_memory.md, 70_reset_and_hazards.md -/

/-- R230, R35, R232, R22: a valid configuration constructs an instance with this state; of the controller only the
width is known, 8 bits, and every other field is unknown; construction emits no event, and before INIT no host command
but INIT emits one; no instruction writes the configuration. Bus words are not host commands and emit in UNINIT too: the
model's choice (notes/assumptions/3.md). -/
def Obligations.ConstructionGivesResetState : Prop :=
  (∀ cfg : Config, configValid cfg = true →
    ∃ s, construct cfg = some s ∧ s.cfg = cfg ∧ s.initState = .uninit ∧ s.faults = [] ∧ firstFaultNumber s = 0
      ∧ s.trace = [] ∧ s.observer = ⟨none, none, none⟩ ∧ s.ctlWidth = some .w8 ∧ s.nibblePhase = none)
    ∧ (∀ (i : Instr) (tag : Nat) (u v : State), hostTag i = some tag → tag ≠ 0 → u.initState = .uninit →
        exec i u = .next v → v.trace = u.trace)
    ∧ ∀ (i : Instr) (u v : State), exec i u = .next v → v.cfg = u.cfg

/-- R206, R231: an invalid configuration constructs nothing, and a state that held one would take no step (the model's
choice, notes/assumptions/11.md). -/
def Obligations.InvalidConfigurationHasNoInstance : Prop :=
  ∀ cfg : Config, configValid cfg = false →
    construct cfg = none ∧ ∀ s : State, s.cfg = cfg → step s = .fault .noInstance

/-- R6, R22: what makes a configuration valid (the operand widths' bound is notes/assumptions/11.md). -/
def Obligations.ValidConfigurationMeetsEveryClause : Prop :=
  ∀ cfg : Config, configValid cfg = true ↔
    1 ≤ cfg.lineCount ∧ cfg.lineOffsets.length = cfg.lineCount ∧ (∀ o ∈ cfg.lineOffsets, o ≤ 127)
      ∧ (cfg.transport = .i2c → cfg.ifaceWidth = .w4 ∧ cfg.backlight ≠ none)
      ∧ (mapPositions cfg.i2cMap).Nodup ∧ (∀ p ∈ mapPositions cfg.i2cMap, p ≤ 7)
      ∧ 1 ≤ cfg.addrInBits ∧ 1 ≤ cfg.colBits ∧ 1 ≤ cfg.lineInBits

/-- The invariant holds of every instance just constructed, the model's reset state among them. Its clause on the
controller's nibble phase, unknown at construction as R232 says, rests on notes/assumptions/10.md in READY. -/
def Obligations.ConstructedStateMeetsInvariant : Prop :=
  Inv State.reset ∧ ∀ (cfg : Config) (s : State), construct cfg = some s → Inv s

/-- Every step keeps the invariant `Inv`: the configuration stays valid, the fault record is that of the responses,
the block is halted exactly when a transport failure is recorded, every event is one the instance can emit, the host
has one response a command, and the observer's counter fits its space. That the controller's nibble phase is high exactly
in READY and unknown in every other state is the model's reading of R32, R232 and R238 (notes/assumptions/10.md, DEDUCED,
and 22.md, 24.md and 26.md, DESIGN CHOICE). -/
def Obligations.StepKeepsInvariant : Prop := ∀ s t : State, Inv s → step s = .next t → Inv t

/-- R20, R21: a step at a valid state runs the decoded instruction at the host's position, and the position then
advances by 1. -/
def Obligations.StepRunsDecodedInstruction : Prop :=
  ∀ (s : State) (p : Packet) (i : Instr), configValid s.cfg = true → s.program[s.k]? = some p →
    decode s.cfg p = .ok i →
      ∃ t, exec i s = .next t ∧ step s = .next { t with k := t.k + 1 }

/-- R21: a step moves the host's position by exactly 1 whatever the status, adds one response, and leaves the host's
program and the configuration as they are. -/
def Obligations.StepAdvancesHostPositionByOne : Prop :=
  ∀ s t : State, step s = .next t →
    t.k = s.k + 1 ∧ t.program = s.program ∧ t.cfg = s.cfg ∧ ∃ r, t.responses = s.responses ++ [r]

/-- R28, R204: every instruction, in every state, answers a next state with exactly one response to the host; it
writes neither the configuration (R22, R125, R151) nor the host's program and position. -/
def Obligations.EveryInstructionAnswersTheHost : Prop :=
  ∀ (i : Instr) (s : State), ∃ t r, exec i s = .next t ∧ t.responses = s.responses ++ [r] ∧ t.cfg = s.cfg
    ∧ t.program = s.program ∧ t.k = s.k

/-- R26: the trace is empty at construction, an instruction only appends to it, and nothing removes an event. -/
def Obligations.TraceOnlyGrows : Prop :=
  (∀ (cfg : Config) (s : State), construct cfg = some s → s.trace = [])
    ∧ ∀ (i : Instr) (s t : State), exec i s = .next t → ∃ ev, t.trace = s.trace ++ ev

/-- R24: the sequencer starts at UNINIT; INIT completing takes UNINIT to READY; an instruction that ends in a transport
failure leaves HALTED, from any state; nothing else changes the state; and HALTED is never left. -/
def Obligations.SequencerStateTransitions : Prop :=
  (∀ (cfg : Config) (s : State), construct cfg = some s → s.initState = .uninit)
    ∧ ∀ (i : Instr) (s t : State) (r : Response), exec i s = .next t → t.responses = s.responses ++ [r] →
        (r.faultCode = some .transportFailure → t.initState = .halted)
          ∧ (hostTag i = some 0x0 → r.faultCode = none → s.initState = .uninit ∧ t.initState = .ready)
          ∧ (r.faultCode ≠ some .transportFailure → ¬ (hostTag i = some 0x0 ∧ r.faultCode = none) →
              t.initState = s.initState)
          ∧ (s.initState = .halted → t.initState = .halted)

/-- R24, R205, R239: once halted the block stays halted, and no later host command emits: each faults `NotReady`, or
`IllegalCommand` under a reserved tag. -/
def Obligations.HaltedBlockRefusesEveryCommand : Prop :=
  ∀ (i : Instr) (tag : Nat) (s : State), hostTag i = some tag → s.initState = .halted →
    exec i s = .next (raised (if tag < 10 then .notReady tag else .illegalCommand tag) s)

/-- R230, R234: before INIT completes, of the HOST COMMANDS only INIT emits an event or changes the observer or the
sequencer. A bus word is no host command and does emit then: the model's choice (notes/assumptions/3.md). -/
def Obligations.OnlyInitEmitsBeforeReady : Prop :=
  ∀ (i : Instr) (tag : Nat) (s t : State), hostTag i = some tag → s.initState = .uninit → exec i s = .next t →
    t.trace ≠ s.trace ∨ t.observer ≠ s.observer ∨ t.initState ≠ s.initState → tag = 0

/-- R27, R235: only INIT with the fallback on requests delays: every other command, and INIT with the fallback off,
adds none to the trace. -/
def Obligations.DelaysComeOnlyFromFallback : Prop :=
  ∀ (i : Instr) (s t : State), exec i s = .next t →
    hostTag i ≠ some 0x0 ∨ s.cfg.initFallback = false →
      t.trace.filter (fun e => !isTransaction e) = s.trace.filter (fun e => !isTransaction e)

/-- R141, D19: where the sink cannot fail, no instruction halts the block or reports a transport failure. -/
def Obligations.ReliableSinkNeverHalts : Prop :=
  ∀ (i : Instr) (s t : State), s.cfg.sinkCanFail = false → exec i s = .next t →
    (t.initState = .halted → s.initState = .halted)
      ∧ (FaultCode.transportFailure ∈ t.faults → FaultCode.transportFailure ∈ s.faults)

/-- R67: a second CLEAR leaves the observer as the first did, at address 0; the trace holds a second frame. Each frame
counts as rightly read whatever the controller's width is (notes/assumptions/21.md). -/
def Obligations.ClearTwiceIsClearOnce : Prop :=
  ∀ s : State, s.initState = .ready →
    answersOk (2 * (logicalFrame s.cfg 0#1 0x01#8).length) s = true →
      ∃ t u, exec .clearCmd s = .next t ∧ exec .clearCmd t = .next u ∧ u.observer = t.observer
        ∧ u.observer.ac = some 0#7
        ∧ u.trace = s.trace ++ logicalFrame s.cfg 0#1 0x01#8 ++ logicalFrame s.cfg 0#1 0x01#8

/-- R182: INIT with the fallback off and then PUTS "Hi" emit exactly the frames of the spec's scenario, in order. -/
def Obligations.InitThenHiFrames : Prop :=
  ∀ (s : State) (n f d c b id sh : Bit), s.initState = .uninit → s.cfg.initFallback = false →
    s.cfg.sinkCanFail = false → s.cfg.terminator ≠ 0x48#8 → s.cfg.terminator ≠ 0x69#8 →
      ∃ t u, exec (.init (.functionSet (dlCfg s.cfg) n f) (.displayCtl d c b) (.entryMode id sh)) s = .next t
        ∧ exec (.puts [0x48#8, 0x69#8, s.cfg.terminator]) t = .next u
        ∧ u.trace = s.trace ++ eightBitFrame s.cfg (enc (.functionSet (dlCfg s.cfg) n f))
            ++ logicalFrame s.cfg 0#1 (enc (.functionSet (dlCfg s.cfg) n f))
            ++ logicalFrame s.cfg 0#1 (enc (.displayCtl d c b)) ++ logicalFrame s.cfg 0#1 (enc (.entryMode id sh))
            ++ logicalFrame s.cfg 1#1 0x48#8 ++ logicalFrame s.cfg 1#1 0x69#8
        ∧ u.initState = .ready ∧ u.faults = s.faults

/-- R66: the observer's step, modulo 64 in CGRAM, in DDRAM by one inside the two ranges and unknown elsewhere, and
unknown where the counter, the direction or the space is; then the observer's update, one row for each thing a complete
frame can carry. The values are the spec's own from general knowledge (notes/assumptions/12.md). -/
def Obligations.ObserverStepRanges : Prop :=
  (∀ (ac : BitVec 7) (id : Option Bit),
    (∃ up down, stepAc ⟨some ac, some .cgram, id⟩ (some 1#1) = some up
        ∧ stepAc ⟨some ac, some .cgram, id⟩ (some 0#1) = some down
        ∧ up.toNat = (ac.toNat + 1) % 64 ∧ down.toNat = (ac.toNat + 63) % 64)
      ∧ (ac.toNat ≤ 0x26 ∨ (0x40 ≤ ac.toNat ∧ ac.toNat ≤ 0x66) →
          ∃ up, stepAc ⟨some ac, some .ddram, id⟩ (some 1#1) = some up ∧ up.toNat = ac.toNat + 1)
      ∧ ((0x01 ≤ ac.toNat ∧ ac.toNat ≤ 0x27) ∨ (0x41 ≤ ac.toNat ∧ ac.toNat ≤ 0x67) →
          ∃ down, stepAc ⟨some ac, some .ddram, id⟩ (some 0#1) = some down ∧ down.toNat + 1 = ac.toNat)
      ∧ (0x26 < ac.toNat ∧ ac.toNat < 0x40 ∨ 0x66 < ac.toNat →
          stepAc ⟨some ac, some .ddram, id⟩ (some 1#1) = none)
      ∧ (ac.toNat = 0 ∨ (0x27 < ac.toNat ∧ ac.toNat < 0x41) ∨ 0x67 < ac.toNat →
          stepAc ⟨some ac, some .ddram, id⟩ (some 0#1) = none))
    ∧ (∀ (o : Observer) (up : Option Bit), o.ac = none ∨ up = none ∨ o.space = none → stepAc o up = none)
    ∧ ∀ o : Observer,
        (∀ i, observeFrame o 0#1 (enc i) = observeInstr o i)
          ∧ (∀ b, observeFrame o 1#1 b = ⟨stepAc o o.id, o.space, o.id⟩)
          ∧ observeInstr o .clear = ⟨some 0#7, some .ddram, some 1#1⟩
          ∧ observeInstr o .home = ⟨some 0#7, some .ddram, o.id⟩
          ∧ (∀ i s, observeInstr o (.entryMode i s) = ⟨o.ac, o.space, some i⟩)
          ∧ (∀ d c b, observeInstr o (.displayCtl d c b) = o)
          ∧ (∀ dl n f, observeInstr o (.functionSet dl n f) = o)
          ∧ (∀ rl, observeInstr o (.shift 1#1 rl) = o)
          ∧ (∀ rl, observeInstr o (.shift 0#1 rl) = ⟨stepAc o (some rl), o.space, o.id⟩)
          ∧ (∀ a, ∃ x : BitVec 7, x.toNat = a.toNat ∧ observeInstr o (.setCgram a) = ⟨some x, some .cgram, o.id⟩)
          ∧ ∀ a, observeInstr o (.setDdram a) = ⟨some a, some .ddram, o.id⟩

/-! ### Host side: the fetch word and the assembler of R92 and R93 -/

/-- The instruction of an opcode-table word, placed at the host's position of a valid state, is what the very next
step decodes and runs; the rest of the host's list up to the position is untouched. -/
def Obligations.PlacedWordIsRunNext : Prop :=
  ∀ (s : State) (nbits w : Nat) (p : Packet) (i : Instr), configValid s.cfg = true →
    tablePacket s.cfg nbits w = some p → decode s.cfg p = .ok i →
      ∃ t, exec i (s.withFetchWord nbits w) = .next t
        ∧ step (s.withFetchWord nbits w) = .next { t with k := s.k + 1 }
        ∧ ∀ j, j < s.k → j < s.program.length → (s.withFetchWord nbits w).program[j]? = s.program[j]?

/-- R93: the expansion of each pseudo-instruction. -/
def Obligations.PseudoInstructionsExpand : Prop :=
  ∀ cfg : Config,
    (∀ id s : Bit, assembleLine cfg (.entry id.toNat s.toNat) = .ok [.txi (.entryMode id s)])
      ∧ (∀ d c b : Bit, assembleLine cfg (.display d.toNat c.toNat b.toNat) = .ok [.txi (.displayCtl d c b)])
      ∧ (∀ sc rl : Bit, assembleLine cfg (.shift sc.toNat rl.toNat) = .ok [.txi (.shift sc rl)])
      ∧ (∀ dl n f : Bit, assembleLine cfg (.func dl.toNat n.toNat f.toNat) = .ok [.txi (.functionSet dl n f)])
      ∧ (∀ b : Byte, assembleLine cfg (.putc b.toNat) = .ok [.txd b])
      ∧ ∀ (k : Nat) (r0 r1 r2 r3 r4 r5 r6 r7 : Byte), k < 8 → 8 * k < 2 ^ cfg.addrInBits →
          assembleLine cfg
              (.glyph k [r0.toNat, r1.toNat, r2.toNat, r3.toNat, r4.toNat, r5.toNat, r6.toNat, r7.toNat])
            = .ok [.setcg (8 * k), .txd r0, .txd r1, .txd r2, .txd r3, .txd r4, .txd r5, .txd r6, .txd r7]

/-- R92, R86: every command the assembler gives is well formed, so the packets of an assembled program decode to its
commands. The packets' operand bytes are the model's layout (notes/assumptions/4.md, DESIGN CHOICE). -/
def Obligations.AssembledProgramDecodes : Prop :=
  ∀ (cfg : Config) (ls : List AsmLine) (is : List Instr), assemble cfg ls = .ok is →
    ∀ i ∈ is, wellFormed cfg i = true ∧ decode cfg (encode cfg i) = .ok i
end

