-- ==== Sys2Proof/Laws/State.lean ====
section
/-! SUPPORT. What each update of the state does to each field, one lemma a pair, so that no proof unfolds a record
update. -/

namespace Sys2Proof.Machine

@[simp] theorem emit_cfg (e : Event) (s : State) : (emit e s).cfg = s.cfg := rfl
@[simp] theorem emit_initState (e : Event) (s : State) : (emit e s).initState = s.initState := rfl
@[simp] theorem emit_faults (e : Event) (s : State) : (emit e s).faults = s.faults := rfl
@[simp] theorem emit_firstFault (e : Event) (s : State) : (emit e s).firstFault = s.firstFault := rfl
@[simp] theorem emit_trace (e : Event) (s : State) : (emit e s).trace = s.trace ++ [e] := rfl
@[simp] theorem emit_program (e : Event) (s : State) : (emit e s).program = s.program := rfl
@[simp] theorem emit_k (e : Event) (s : State) : (emit e s).k = s.k := rfl
@[simp] theorem emit_responses (e : Event) (s : State) : (emit e s).responses = s.responses := rfl
@[simp] theorem emit_observer (e : Event) (s : State) : (emit e s).observer = s.observer := rfl
@[simp] theorem emit_ctlWidth (e : Event) (s : State) : (emit e s).ctlWidth = s.ctlWidth := rfl
@[simp] theorem emit_nibblePhase (e : Event) (s : State) : (emit e s).nibblePhase = s.nibblePhase := rfl
@[simp] theorem emit_sinkAnswers (e : Event) (s : State) : (emit e s).sinkAnswers = s.sinkAnswers := rfl
@[simp] theorem emit_samples (e : Event) (s : State) : (emit e s).samples = s.samples := rfl
@[simp] theorem emit_draws (e : Event) (s : State) : (emit e s).draws = s.draws := rfl

@[simp] theorem respond_cfg (r : Response) (s : State) : (respond r s).cfg = s.cfg := rfl
@[simp] theorem respond_initState (r : Response) (s : State) : (respond r s).initState = s.initState := rfl
@[simp] theorem respond_faults (r : Response) (s : State) : (respond r s).faults = s.faults := rfl
@[simp] theorem respond_firstFault (r : Response) (s : State) : (respond r s).firstFault = s.firstFault := rfl
@[simp] theorem respond_trace (r : Response) (s : State) : (respond r s).trace = s.trace := rfl
@[simp] theorem respond_program (r : Response) (s : State) : (respond r s).program = s.program := rfl
@[simp] theorem respond_k (r : Response) (s : State) : (respond r s).k = s.k := rfl
@[simp] theorem respond_responses (r : Response) (s : State) : (respond r s).responses = s.responses ++ [r] := rfl
@[simp] theorem respond_observer (r : Response) (s : State) : (respond r s).observer = s.observer := rfl
@[simp] theorem respond_ctlWidth (r : Response) (s : State) : (respond r s).ctlWidth = s.ctlWidth := rfl
@[simp] theorem respond_nibblePhase (r : Response) (s : State) : (respond r s).nibblePhase = s.nibblePhase := rfl
@[simp] theorem respond_sinkAnswers (r : Response) (s : State) : (respond r s).sinkAnswers = s.sinkAnswers := rfl
@[simp] theorem respond_samples (r : Response) (s : State) : (respond r s).samples = s.samples := rfl
@[simp] theorem respond_draws (r : Response) (s : State) : (respond r s).draws = s.draws := rfl

@[simp] theorem recordFault_cfg (c : FaultCode) (s : State) : (recordFault c s).cfg = s.cfg := rfl
@[simp] theorem recordFault_initState (c : FaultCode) (s : State) : (recordFault c s).initState = s.initState := rfl
@[simp] theorem recordFault_faults (c : FaultCode) (s : State) : (recordFault c s).faults = insertCode c s.faults := rfl
@[simp] theorem recordFault_trace (c : FaultCode) (s : State) : (recordFault c s).trace = s.trace := rfl
@[simp] theorem recordFault_program (c : FaultCode) (s : State) : (recordFault c s).program = s.program := rfl
@[simp] theorem recordFault_k (c : FaultCode) (s : State) : (recordFault c s).k = s.k := rfl
@[simp] theorem recordFault_responses (c : FaultCode) (s : State) : (recordFault c s).responses = s.responses := rfl
@[simp] theorem recordFault_observer (c : FaultCode) (s : State) : (recordFault c s).observer = s.observer := rfl
@[simp] theorem recordFault_ctlWidth (c : FaultCode) (s : State) : (recordFault c s).ctlWidth = s.ctlWidth := rfl
@[simp] theorem recordFault_nibblePhase (c : FaultCode) (s : State) : (recordFault c s).nibblePhase = s.nibblePhase := rfl
@[simp] theorem recordFault_sinkAnswers (c : FaultCode) (s : State) : (recordFault c s).sinkAnswers = s.sinkAnswers := rfl
@[simp] theorem recordFault_samples (c : FaultCode) (s : State) : (recordFault c s).samples = s.samples := rfl
@[simp] theorem recordFault_draws (c : FaultCode) (s : State) : (recordFault c s).draws = s.draws := rfl

@[simp] theorem raised_cfg (f : Raised) (s : State) : (raised f s).cfg = s.cfg := rfl
@[simp] theorem raised_initState (f : Raised) (s : State) : (raised f s).initState = s.initState := rfl
@[simp] theorem raised_faults (f : Raised) (s : State) : (raised f s).faults = insertCode f.code s.faults := rfl
@[simp] theorem raised_trace (f : Raised) (s : State) : (raised f s).trace = s.trace := rfl
@[simp] theorem raised_program (f : Raised) (s : State) : (raised f s).program = s.program := rfl
@[simp] theorem raised_k (f : Raised) (s : State) : (raised f s).k = s.k := rfl
@[simp] theorem raised_responses (f : Raised) (s : State) : (raised f s).responses = s.responses ++ [⟨.fault f, none⟩] := rfl
@[simp] theorem raised_observer (f : Raised) (s : State) : (raised f s).observer = s.observer := rfl
@[simp] theorem raised_ctlWidth (f : Raised) (s : State) : (raised f s).ctlWidth = s.ctlWidth := rfl
@[simp] theorem raised_nibblePhase (f : Raised) (s : State) : (raised f s).nibblePhase = s.nibblePhase := rfl
@[simp] theorem raised_sinkAnswers (f : Raised) (s : State) : (raised f s).sinkAnswers = s.sinkAnswers := rfl
@[simp] theorem raised_samples (f : Raised) (s : State) : (raised f s).samples = s.samples := rfl
@[simp] theorem raised_draws (f : Raised) (s : State) : (raised f s).draws = s.draws := rfl

@[simp] theorem halt_cfg (s : State) : (halt s).cfg = s.cfg := rfl
@[simp] theorem halt_initState (s : State) : (halt s).initState = .halted := rfl
@[simp] theorem halt_faults (s : State) : (halt s).faults = s.faults := rfl
@[simp] theorem halt_firstFault (s : State) : (halt s).firstFault = s.firstFault := rfl
@[simp] theorem halt_trace (s : State) : (halt s).trace = s.trace := rfl
@[simp] theorem halt_program (s : State) : (halt s).program = s.program := rfl
@[simp] theorem halt_k (s : State) : (halt s).k = s.k := rfl
@[simp] theorem halt_responses (s : State) : (halt s).responses = s.responses := rfl
@[simp] theorem halt_observer (s : State) : (halt s).observer = Observer.unknown := rfl
@[simp] theorem halt_ctlWidth (s : State) : (halt s).ctlWidth = none := rfl
@[simp] theorem halt_nibblePhase (s : State) : (halt s).nibblePhase = none := rfl
@[simp] theorem halt_sinkAnswers (s : State) : (halt s).sinkAnswers = s.sinkAnswers := rfl
@[simp] theorem halt_samples (s : State) : (halt s).samples = s.samples := rfl
@[simp] theorem halt_draws (s : State) : (halt s).draws = s.draws := rfl

@[simp] theorem delivered_cfg (rs : Bit) (b : Word) (s : State) : (delivered rs b s).cfg = s.cfg := rfl
@[simp] theorem delivered_initState (rs : Bit) (b : Word) (s : State) : (delivered rs b s).initState = s.initState := rfl
@[simp] theorem delivered_faults (rs : Bit) (b : Word) (s : State) : (delivered rs b s).faults = s.faults := rfl
@[simp] theorem delivered_firstFault (rs : Bit) (b : Word) (s : State) : (delivered rs b s).firstFault = s.firstFault := rfl
@[simp] theorem delivered_trace (rs : Bit) (b : Word) (s : State) : (delivered rs b s).trace = s.trace := rfl
@[simp] theorem delivered_program (rs : Bit) (b : Word) (s : State) : (delivered rs b s).program = s.program := rfl
@[simp] theorem delivered_k (rs : Bit) (b : Word) (s : State) : (delivered rs b s).k = s.k := rfl
@[simp] theorem delivered_responses (rs : Bit) (b : Word) (s : State) : (delivered rs b s).responses = s.responses := rfl
@[simp] theorem delivered_observer (rs : Bit) (b : Word) (s : State) : (delivered rs b s).observer = observeFrame s.observer rs b := rfl
@[simp] theorem delivered_ctlWidth (rs : Bit) (b : Word) (s : State) : (delivered rs b s).ctlWidth = widthAfter s.ctlWidth rs b := rfl
@[simp] theorem delivered_nibblePhase (rs : Bit) (b : Word) (s : State) : (delivered rs b s).nibblePhase = s.nibblePhase := rfl
@[simp] theorem delivered_sinkAnswers (rs : Bit) (b : Word) (s : State) : (delivered rs b s).sinkAnswers = s.sinkAnswers := rfl
@[simp] theorem delivered_samples (rs : Bit) (b : Word) (s : State) : (delivered rs b s).samples = s.samples := rfl
@[simp] theorem delivered_draws (rs : Bit) (b : Word) (s : State) : (delivered rs b s).draws = s.draws := rfl

@[simp] theorem becomeReady_initState (s : State) : (becomeReady s).initState = .ready := rfl
@[simp] theorem becomeReady_nibblePhase (s : State) : (becomeReady s).nibblePhase = some .high := rfl
@[simp] theorem becomeReady_cfg (s : State) : (becomeReady s).cfg = s.cfg := rfl
@[simp] theorem becomeReady_faults (s : State) : (becomeReady s).faults = s.faults := rfl
@[simp] theorem becomeReady_firstFault (s : State) : (becomeReady s).firstFault = s.firstFault := rfl
@[simp] theorem becomeReady_trace (s : State) : (becomeReady s).trace = s.trace := rfl
@[simp] theorem becomeReady_program (s : State) : (becomeReady s).program = s.program := rfl
@[simp] theorem becomeReady_k (s : State) : (becomeReady s).k = s.k := rfl
@[simp] theorem becomeReady_responses (s : State) : (becomeReady s).responses = s.responses := rfl
@[simp] theorem becomeReady_observer (s : State) : (becomeReady s).observer = s.observer := rfl
@[simp] theorem becomeReady_ctlWidth (s : State) : (becomeReady s).ctlWidth = s.ctlWidth := rfl
@[simp] theorem becomeReady_sinkAnswers (s : State) : (becomeReady s).sinkAnswers = s.sinkAnswers := rfl
@[simp] theorem becomeReady_samples (s : State) : (becomeReady s).samples = s.samples := rfl
@[simp] theorem becomeReady_draws (s : State) : (becomeReady s).draws = s.draws := rfl

@[simp] theorem advance_cfg (s : State) : (advance s).cfg = s.cfg := rfl
@[simp] theorem advance_initState (s : State) : (advance s).initState = s.initState := rfl
@[simp] theorem advance_faults (s : State) : (advance s).faults = s.faults := rfl
@[simp] theorem advance_firstFault (s : State) : (advance s).firstFault = s.firstFault := rfl
@[simp] theorem advance_trace (s : State) : (advance s).trace = s.trace := rfl
@[simp] theorem advance_program (s : State) : (advance s).program = s.program := rfl
@[simp] theorem advance_k (s : State) : (advance s).k = s.k + 1 := rfl
@[simp] theorem advance_responses (s : State) : (advance s).responses = s.responses := rfl
@[simp] theorem advance_observer (s : State) : (advance s).observer = s.observer := rfl
@[simp] theorem advance_ctlWidth (s : State) : (advance s).ctlWidth = s.ctlWidth := rfl
@[simp] theorem advance_nibblePhase (s : State) : (advance s).nibblePhase = s.nibblePhase := rfl
@[simp] theorem advance_sinkAnswers (s : State) : (advance s).sinkAnswers = s.sinkAnswers := rfl
@[simp] theorem advance_samples (s : State) : (advance s).samples = s.samples := rfl
@[simp] theorem advance_draws (s : State) : (advance s).draws = s.draws := rfl

@[simp] theorem placeNext_cfg (p : Packet) (s : State) : (placeNext p s).cfg = s.cfg := rfl
@[simp] theorem placeNext_initState (p : Packet) (s : State) : (placeNext p s).initState = s.initState := rfl
@[simp] theorem placeNext_faults (p : Packet) (s : State) : (placeNext p s).faults = s.faults := rfl
@[simp] theorem placeNext_firstFault (p : Packet) (s : State) : (placeNext p s).firstFault = s.firstFault := rfl
@[simp] theorem placeNext_trace (p : Packet) (s : State) : (placeNext p s).trace = s.trace := rfl
@[simp] theorem placeNext_k (p : Packet) (s : State) : (placeNext p s).k = s.k := rfl
@[simp] theorem placeNext_responses (p : Packet) (s : State) : (placeNext p s).responses = s.responses := rfl
@[simp] theorem placeNext_observer (p : Packet) (s : State) : (placeNext p s).observer = s.observer := rfl
@[simp] theorem placeNext_ctlWidth (p : Packet) (s : State) : (placeNext p s).ctlWidth = s.ctlWidth := rfl
@[simp] theorem placeNext_nibblePhase (p : Packet) (s : State) : (placeNext p s).nibblePhase = s.nibblePhase := rfl
@[simp] theorem placeNext_sinkAnswers (p : Packet) (s : State) : (placeNext p s).sinkAnswers = s.sinkAnswers := rfl
@[simp] theorem placeNext_samples (p : Packet) (s : State) : (placeNext p s).samples = s.samples := rfl
@[simp] theorem placeNext_draws (p : Packet) (s : State) : (placeNext p s).draws = s.draws := rfl

@[simp] theorem loadProgram_cfg (is : List Instr) (s : State) : (loadProgram is s).cfg = s.cfg := rfl
@[simp] theorem loadProgram_initState (is : List Instr) (s : State) : (loadProgram is s).initState = s.initState := rfl
@[simp] theorem loadProgram_faults (is : List Instr) (s : State) : (loadProgram is s).faults = s.faults := rfl
@[simp] theorem loadProgram_firstFault (is : List Instr) (s : State) : (loadProgram is s).firstFault = s.firstFault := rfl
@[simp] theorem loadProgram_trace (is : List Instr) (s : State) : (loadProgram is s).trace = s.trace := rfl
@[simp] theorem loadProgram_program (is : List Instr) (s : State) : (loadProgram is s).program = is.map (encode s.cfg) := rfl
@[simp] theorem loadProgram_k (is : List Instr) (s : State) : (loadProgram is s).k = 0 := rfl
@[simp] theorem loadProgram_responses (is : List Instr) (s : State) : (loadProgram is s).responses = s.responses := rfl
@[simp] theorem loadProgram_observer (is : List Instr) (s : State) : (loadProgram is s).observer = s.observer := rfl
@[simp] theorem loadProgram_ctlWidth (is : List Instr) (s : State) : (loadProgram is s).ctlWidth = s.ctlWidth := rfl
@[simp] theorem loadProgram_nibblePhase (is : List Instr) (s : State) : (loadProgram is s).nibblePhase = s.nibblePhase := rfl
@[simp] theorem loadProgram_sinkAnswers (is : List Instr) (s : State) : (loadProgram is s).sinkAnswers = s.sinkAnswers := rfl
@[simp] theorem loadProgram_samples (is : List Instr) (s : State) : (loadProgram is s).samples = s.samples := rfl
@[simp] theorem loadProgram_draws (is : List Instr) (s : State) : (loadProgram is s).draws = s.draws := rfl

/-- The first fault recorded stays the first (R25). -/
@[simp] theorem recordFault_firstFault_none (c : FaultCode) (s : State) (h : s.firstFault = none) :
    (recordFault c s).firstFault = some c := by simp [recordFault, h]

@[simp] theorem recordFault_firstFault_some (c d : FaultCode) (s : State) (h : s.firstFault = some d) :
    (recordFault c s).firstFault = some d := by simp [recordFault, h]

theorem recordFault_firstFault (c : FaultCode) (s : State) :
    (recordFault c s).firstFault = s.firstFault.or (some c) := by
  cases h : s.firstFault <;> simp [recordFault, h]

theorem raised_firstFault (f : Raised) (s : State) : (raised f s).firstFault = s.firstFault.or (some f.code) :=
  recordFault_firstFault f.code s

theorem mem_insertCode (c d : FaultCode) (l : List FaultCode) : d ∈ insertCode c l ↔ d = c ∨ d ∈ l := by
  cases d <;> simp [insertCode, allCodes]

theorem insertCode_wf (c : FaultCode) (l : List FaultCode) : faultSetWf (insertCode c l) = true := by
  simp only [faultSetWf, decide_eq_true_eq]
  conv_lhs => rw [insertCode]
  apply List.filter_congr
  intro d _
  simp only [List.contains_eq_mem, mem_insertCode, Bool.decide_or]

end Sys2Proof.Machine
end

