-- ==== Sys2Proof/Laws/Ops.lean ====
section
/-! SUPPORT. What each shared operation can do, said once: one inversion lemma an operation, up to `exec_cases`, which
later proofs cite instead of unfolding the operation. -/

namespace Sys2Proof.Machine

/-- A signal in an I2C byte sets its own bit only. -/
theorem signalAt_getLsbD (v : Bit) (p q : Nat) (hq : q < 8) :
    (signalAt v p).getLsbD q = (decide (q = p) && v.getLsbD 0) := by
  simp only [signalAt, zext8, BitVec.getLsbD_shiftLeft, BitVec.getLsbD_setWidth, hq, decide_true, Bool.true_and]
  rcases Nat.lt_trichotomy q p with h | h | h
  · simp [h, Nat.ne_of_lt h]
  · simp [h]
  · have h1 : ¬ q < p := by omega
    have h2 : q ≠ p := by omega
    have h3 : 1 ≤ q - p := by omega
    simp [h1, h2, h3]

/-- The eight signals of a valid map stand on eight different bits of a byte (R6). -/
theorem positions_of_valid {cfg : Config} (h : configValid cfg = true) :
    (∀ p ∈ mapPositions cfg.i2cMap, p < 8) ∧ (mapPositions cfg.i2cMap).Nodup := by
  simp only [configValid, clausesOfR6, Bool.and_eq_true, List.all_eq_true, decide_eq_true_eq] at h
  exact ⟨h.1.1.1.1.2, h.1.1.1.2⟩

/-- An I2C byte is a write, and carries the backlight bit (R144). -/
theorem i2cPack_rw_bl {cfg : Config} (h : configValid cfg = true) (rs en : Bit) (n : Nibble) :
    (i2cPack cfg rs en n).getLsbD cfg.i2cMap.rw = false ∧
      (i2cPack cfg rs en n).getLsbD cfg.i2cMap.bl = (blBit cfg).getLsbD 0 := by
  obtain ⟨hb, hd⟩ := positions_of_valid h
  simp only [mapPositions, List.mem_cons, List.not_mem_nil, or_false, forall_eq_or_imp, forall_eq] at hb
  simp only [mapPositions, List.nodup_cons, List.mem_cons, List.not_mem_nil, or_false, not_or] at hd
  obtain ⟨-, hrw, -, hbl, -⟩ := hb
  constructor
  · simp only [i2cPack, BitVec.getLsbD_or, signalAt_getLsbD _ _ _ hrw]
    simp [hd, Ne.symm hd.1.1]
  · simp only [i2cPack, BitVec.getLsbD_or, signalAt_getLsbD _ _ _ hbl]
    simp [hd, Ne.symm hd.1.2.2.1, Ne.symm hd.2.1.2.1, Ne.symm hd.2.2.1.1]

/-- Both paths emit only events the instance can emit (R151). -/
theorem frames_legal {cfg : Config} (h : configValid cfg = true) (rs : Bit) (b : Word) :
    (∀ e ∈ logicalFrame cfg rs b, legalEvent cfg e = true) ∧ (∀ e ∈ eightBitFrame cfg b, legalEvent cfg e = true) := by
  have hi := fun rs en n => i2cPack_rw_bl h rs en n
  cases ht : cfg.transport <;> cases hw : cfg.ifaceWidth <;>
    simp [logicalFrame, eightBitFrame, framePar8, framePar4, frameI2c, legalEvent, PtData.width, ht, hw, hi]

/-- What asking the sink can do (R141). -/
theorem askSink_cases (s : State) :
    ∃ a l d, askSink s = (a, { s with sinkAnswers := l, draws := d }) ∧ (s.cfg.sinkCanFail = false → a = true) := by
  unfold askSink
  split
  · split
    · exact ⟨_, _, s.draws, rfl, by simp_all⟩
    · exact ⟨_, s.sinkAnswers, _, rfl, by simp_all⟩
  · exact ⟨true, s.sinkAnswers, s.draws, rfl, fun _ => rfl⟩

/-- What sampling the bus can do (R152). -/
theorem sampleBus_cases (s : State) : ∃ v l d, sampleBus s = (v, { s with samples := l, draws := d }) := by
  unfold sampleBus
  split
  · exact ⟨_, _, s.draws, rfl⟩
  · exact ⟨_, s.samples, _, rfl⟩

/-- What `Xmit` can do (R141): every transaction goes out, or the first refused one is the last and halts the block. -/
theorem xmit_cases (base i : Nat) (ts : List Event) (s : State) :
    (∃ l d, xmit base i ts s = ({ s with trace := s.trace ++ ts, sinkAnswers := l, draws := d }, none)) ∨
    (∃ j l d, j < ts.length ∧ s.cfg.sinkCanFail = true ∧
      xmit base i ts s = (halt { s with trace := s.trace ++ ts.take (j + 1), sinkAnswers := l, draws := d },
        some (.transportFailure (i + j) (base + (i + j))))) := by
  induction ts generalizing i s with
  | nil => exact .inl ⟨s.sinkAnswers, s.draws, by simp [xmit]⟩
  | cons t ts ih =>
    obtain ⟨a, l, d, hask, hcan⟩ := askSink_cases (emit t s)
    cases a with
    | false =>
      refine .inr ⟨0, l, d, by simp, ?_, ?_⟩
      · cases hc : s.cfg.sinkCanFail
        · exact absurd (hcan hc) (by simp)
        · rfl
      · simp only [xmit, hask]
        simp [emit, halt]
    | true =>
      rcases ih (i + 1) { emit t s with sinkAnswers := l, draws := d } with ⟨l', d', h⟩ | ⟨j, l', d', hj, hc, h⟩
      · refine .inl ⟨l', d', ?_⟩
        simp only [xmit, hask, h]
        simp [emit]
      · refine .inr ⟨j + 1, l', d', by simpa using hj, hc, ?_⟩
        simp only [xmit, hask, h]
        simp [emit, halt]
        omega

theorem moveEvents_cons (m : Move) (ms : List Move) :
    moveEvents (m :: ms) = moveEvents [m] ++ moveEvents ms := by
  simp [moveEvents]

/-- What a command's moves can do (R141, R66): all of them, or all up to a refused transaction. -/
theorem runMoves_cases (base : Nat) (ms : List Move) (s : State) :
    (∃ l d, runMoves base ms s =
      ({ s with
          trace := s.trace ++ moveEvents ms, observer := moveObserver s.observer ms
          ctlWidth := moveWidth s.ctlWidth ms, sinkAnswers := l, draws := d }, none)) ∨
    (∃ n p q l d, n ≤ (moveEvents ms).length ∧ s.cfg.sinkCanFail = true ∧
      runMoves base ms s =
        (halt { s with trace := s.trace ++ (moveEvents ms).take n, sinkAnswers := l, draws := d },
          some (.transportFailure p q))) := by
  induction ms generalizing base s with
  | nil => exact .inl ⟨s.sinkAnswers, s.draws, by simp [runMoves, moveEvents, moveObserver, moveWidth]⟩
  | cons m ms ih =>
    cases m with
    | delay t =>
      rcases ih base (emit (.delayReq t) s) with ⟨l, d, h⟩ | ⟨n, p, q, l, d, hn, hc, h⟩
      · refine .inl ⟨l, d, ?_⟩
        simp only [runMoves, h]
        simp [emit, moveEvents, moveObserver, moveWidth]
      · refine .inr ⟨n + 1, p, q, l, d, ?_, hc, ?_⟩
        · simpa [moveEvents] using hn
        · simp only [runMoves, h]
          simp [emit, halt, moveEvents]
    | send rs b frame =>
      rcases xmit_cases base 0 frame s with ⟨l, d, h⟩ | ⟨j, l, d, hj, hc, h⟩
      · rcases ih (base + frame.length)
            (delivered rs b { s with trace := s.trace ++ frame, sinkAnswers := l, draws := d }) with
          ⟨l', d', h'⟩ | ⟨n, p, q, l', d', hn, hc, h'⟩
        · refine .inl ⟨l', d', ?_⟩
          simp only [runMoves, h, h']
          simp [delivered, moveEvents, moveObserver, moveWidth]
        · refine .inr ⟨frame.length + n, p, q, l', d', ?_, hc, ?_⟩
          · rw [moveEvents_cons]; simpa [moveEvents] using hn
          · simp only [runMoves, h, h']
            rw [moveEvents_cons]
            simp [moveEvents, delivered, halt, List.take_append, List.take_of_length_le]
      · refine .inr ⟨j + 1, 0 + j, base + (0 + j), l, d, ?_, hc, ?_⟩
        · rw [moveEvents_cons]; simp [moveEvents]; omega
        · simp only [runMoves, h]
          rw [moveEvents_cons, List.take_append_of_le_length (by simp [moveEvents]; omega)]
          simp [moveEvents]

/-- A validation fault: nothing but the fault record and the response changes (R201, R202). -/
def Refused (s t : State) : Prop := ∃ f : Raised, f.code ≠ .transportFailure ∧ t = raised f s

/-- A transport failure after the first of the events `all`, which the instance can emit (R141, R202). -/
def Failed (s t : State) (all : List Event) : Prop :=
  ∃ p q ev l d, s.cfg.sinkCanFail = true ∧ ev <+: all ∧
    (configValid s.cfg = true → ∀ e ∈ ev, legalEvent s.cfg e = true) ∧
    t = raised (.transportFailure p q) (halt { s with trace := s.trace ++ ev, sinkAnswers := l, draws := d })

/-- A command that ends with `OK` (R8): the events it emitted, and the sequencer's state and the controller's nibble
phase it leaves. -/
def Completed (s t : State) (ev : List Event) (init : InitState) (phase : Option NibbleHalf) : Prop :=
  ∃ res o w l m d, (configValid s.cfg = true → ∀ e ∈ ev, legalEvent s.cfg e = true) ∧
    (observerOk s.observer → observerOk o) ∧
    t = respond ⟨.ok, res⟩
      { s with
        trace := s.trace ++ ev, observer := o, ctlWidth := w, nibblePhase := phase, initState := init
        sinkAnswers := l, samples := m, draws := d }

/-- A move whose events an instance can emit. -/
def legalMove (cfg : Config) : Move → Prop
  | .delay ms => legalEvent cfg (.delayReq ms) = true
  | .send _ _ frame => configValid cfg = true → ∀ e ∈ frame, legalEvent cfg e = true

theorem legalMove_sendL (cfg : Config) (rs : Bit) (b : Word) : legalMove cfg (sendL cfg rs b) :=
  fun h => (frames_legal h rs b).1

theorem legalMove_send8 (cfg : Config) (b : Word) : legalMove cfg (send8 cfg b) :=
  fun h => (frames_legal h 0#1 b).2

theorem moveEvents_legal {cfg : Config} {ms : List Move} (h : ∀ m ∈ ms, legalMove cfg m)
    (hv : configValid cfg = true) : ∀ e ∈ moveEvents ms, legalEvent cfg e = true := by
  intro e he
  simp only [moveEvents, List.mem_flatMap] at he
  obtain ⟨m, hm, he⟩ := he
  have := h m hm
  cases m with
  | delay t => simp only [List.mem_singleton] at he; subst he; exact this
  | send rs b f => exact this hv e he

/-- One step of the observer's counter stays inside the space (R66). -/
theorem stepAc_ok (o : Observer) (up : Option Bit) (o' : Observer) (hs : o'.space = o.space)
    (ha : o'.ac = stepAc o up) : observerOk o' := by
  intro hsp ac hac
  rw [hs] at hsp
  rw [ha] at hac
  unfold stepAc at hac
  split at hac
  · simp only [Option.some.injEq] at hac
    subst hac
    unfold stepCgram
    split
    · simp only [BitVec.toNat_ofNat]; omega
    · simp only [BitVec.toNat_ofNat]; omega
  · simp_all
  · cases hac

theorem observeInstr_ok (o : Observer) (i : BusInstr) (h : observerOk o) : observerOk (observeInstr o i) := by
  cases i with
  | clear => intro hs; cases hs
  | home => intro hs; cases hs
  | entryMode id s => exact h
  | displayCtl d c b => exact h
  | shift sc rl =>
    by_cases hsc : sc = 0#1
    · exact stepAc_ok o (some rl) _ (by simp [observeInstr, hsc]) (by simp [observeInstr, hsc])
    · simpa [observeInstr, hsc] using h
  | functionSet dl n f => exact h
  | setCgram a =>
    intro _ ac hac
    simp only [observeInstr, Option.some.injEq] at hac
    subst hac
    have := a.isLt
    simp only [BitVec.toNat_setWidth]
    omega
  | setDdram a => intro hs; cases hs

theorem observeFrame_ok (o : Observer) (rs : Bit) (b : Word) (h : observerOk o) : observerOk (observeFrame o rs b) := by
  unfold observeFrame
  split
  · exact stepAc_ok o o.id _ rfl rfl
  · split
    · exact observeInstr_ok o _ h
    · exact h

theorem moveObserver_ok (o : Observer) (ms : List Move) (h : observerOk o) : observerOk (moveObserver o ms) := by
  induction ms generalizing o with
  | nil => exact h
  | cons m ms ih =>
    cases m with
    | delay t => exact ih o h
    | send rs b f => exact ih _ (observeFrame_ok o rs b h)

theorem raise_refused (f : Raised) (s : State) (h : f.code ≠ .transportFailure) :
    ∃ t, raise f s = .next t ∧ Refused s t := ⟨_, rfl, f, h, rfl⟩

/-- What transmitting a command's moves can do (R141, R28). -/
theorem transmit_cases {ms : List Move} {s : State} (h : ∀ m ∈ ms, legalMove s.cfg m) :
    ∃ t, transmit ms s = .next t ∧
      (Failed s t (moveEvents ms) ∨ Completed s t (moveEvents ms) s.initState s.nibblePhase) := by
  rcases runMoves_cases 0 ms s with ⟨l, d, hr⟩ | ⟨n, p, q, l, d, _, hc, hr⟩
  · refine ⟨_, by simp only [transmit, hr]; rfl, .inr ⟨none, _, _, l, s.samples, d, fun hv => moveEvents_legal h hv,
      moveObserver_ok s.observer ms, rfl⟩⟩
  · exact ⟨_, by simp only [transmit, hr]; rfl, .inl ⟨p, q, _, l, d, hc, List.take_prefix _ _,
      fun hv e he => moveEvents_legal h hv e (List.mem_of_mem_take he), rfl⟩⟩

/-- One logical frame (R146). -/
theorem transmit_sendL_cases (rs : Bit) (b : Word) (s : State) :
    ∃ t, transmit [sendL s.cfg rs b] s = .next t ∧
      (Failed s t (logicalFrame s.cfg rs b) ∨
        Completed s t (logicalFrame s.cfg rs b) s.initState s.nibblePhase) := by
  have := transmit_cases (s := s) (ms := [sendL s.cfg rs b]) (by simp [legalMove_sendL])
  simpa [moveEvents, sendL] using this

/-- PUTS emits one data frame a byte sent, in order (R176). -/
theorem putsMoves_events (cfg : Config) (bytes : List Byte) :
    moveEvents (putsMoves cfg bytes) = (putsBytes cfg bytes).flatMap (logicalFrame cfg 1#1) := by
  simp [moveEvents, putsMoves, sendL, List.flatMap_map]

/-- What a status read can do in each read mode (R177), whatever gives the sampled byte. -/
theorem statusRead_cases (sample : State → Byte × State)
    (hs : ∀ u, ∃ v m d, sample u = (v, { u with samples := m, draws := d })) (s : State) :
    ∃ t, statusRead sample s = .next t ∧
      (Refused s t ∨ Failed s t (statusEvents s.cfg) ∨
        Completed s t (statusEvents s.cfg) s.initState s.nibblePhase) := by
  unfold statusRead statusEvents
  split
  · obtain ⟨t, h, hr⟩ := raise_refused .readUnsupported s (by simp [Raised.code])
    exact ⟨t, h, .inl hr⟩
  · rename_i hm
    exact ⟨_, rfl, .inr (.inr ⟨some ⟨0#1, 0#7⟩, s.observer, s.ctlWidth, s.sinkAnswers, s.samples, s.draws,
      by simp [hm], id, by simp [hm, respond]⟩)⟩
  · obtain ⟨t, h, hr⟩ := raise_refused .readUnsupported s (by simp [Raised.code])
    exact ⟨t, h, .inl hr⟩
  · rename_i hm ht
    have hl : legalEvent s.cfg (.readCycle 0#1) = true := by simp [legalEvent, hm, ht]
    rcases xmit_cases 0 0 [.readCycle 0#1] s with ⟨l, d, hx⟩ | ⟨j, l, d, _, hc, hx⟩
    · obtain ⟨v, m, d', hv⟩ := hs { s with trace := s.trace ++ [.readCycle 0#1], sinkAnswers := l, draws := d }
      refine ⟨_, by simp only [readCycle, hx, hv]; rfl, .inr (.inr ⟨some (decodeStatus v), s.observer,
        s.ctlWidth, l, m, d', by simp [hm, ht, hl], id, by simp [hm, ht, respond]⟩)⟩
    · refine ⟨_, by simp only [readCycle, hx]; rfl, .inr (.inl ⟨_, _, _, l, d, hc, ?_, fun _ e he => ?_, rfl⟩)⟩
      · simpa only [hm, ht, and_self, if_true] using List.take_prefix _ _
      have := List.mem_of_mem_take he
      simp only [List.mem_singleton] at this
      exact this ▸ hl

/-- What `ready_check` lets through (R170). -/
theorem whenReady_cases (tag : Nat) (body : State → Answer) (s : State) :
    (s.initState = .ready ∧ whenReady tag body s = body s) ∨
    (s.initState ≠ .ready ∧ whenReady tag body s = raise (.notReady tag) s) := by
  cases h : s.initState <;> simp [whenReady, readyCheck, h]

/-- What executing an instruction can do: it always answers a next state, in which it raised a fault before its
first event, met a transport failure after the first of its events, or completed with all of them; only INIT moves the
sequencer, from UNINIT to READY. -/
theorem exec_cases (i : Instr) (s : State) :
    ∃ t, exec i s = .next t ∧
      (Refused s t ∨ Failed s t (commandEvents s.cfg i) ∨
        Completed s t (commandEvents s.cfg i) s.initState s.nibblePhase ∨
        (s.initState = .uninit ∧ hostTag i = some 0x0 ∧
          Completed s t (commandEvents s.cfg i) .ready (some .high))) := by
  have word : ∀ rs b, ∃ t, transmit [sendL s.cfg rs b] s = .next t ∧
      (Refused s t ∨ Failed s t (logicalFrame s.cfg rs b) ∨
        Completed s t (logicalFrame s.cfg rs b) s.initState s.nibblePhase) := fun rs b => by
    obtain ⟨t, h, h'⟩ := transmit_sendL_cases rs b s
    exact ⟨t, h, .inr h'⟩
  have ready : ∀ tag body all, (∃ t, body s = .next t ∧
      (Refused s t ∨ Failed s t all ∨ Completed s t all s.initState s.nibblePhase)) →
      ∃ t, whenReady tag body s = .next t ∧
        (Refused s t ∨ Failed s t all ∨ Completed s t all s.initState s.nibblePhase) := fun tag body all hb => by
    rcases whenReady_cases tag body s with ⟨-, h⟩ | ⟨-, h⟩
    · rw [h]; exact hb
    · rw [h]
      obtain ⟨t, h, hr⟩ := raise_refused (.notReady tag) s (by simp [Raised.code])
      exact ⟨t, h, .inl hr⟩
  have fault : ∀ (f : Raised) all, f.code ≠ .transportFailure → ∃ t, raise f s = .next t ∧
      (Refused s t ∨ Failed s t all ∨ Completed s t all s.initState s.nibblePhase) := fun f all hf => by
    obtain ⟨t, h, hr⟩ := raise_refused f s hf
    exact ⟨t, h, .inl hr⟩
  have resolved : ∀ r : Except Raised BusInstr, (∀ f, r = .error f → f.code ≠ .transportFailure) →
      ∃ t, sendResolved r s = .next t ∧
        (Refused s t ∨ Failed s t (resolvedEvents s.cfg r) ∨
          Completed s t (resolvedEvents s.cfg r) s.initState s.nibblePhase) := fun r hr => by
    cases r with
    | error f => exact fault f _ (hr f rfl)
    | ok i => exact word 0#1 (enc i)
  have ddram : ∀ a f, resolveDdram s.cfg a = .error f → f.code ≠ .transportFailure := fun a f h => by
    unfold resolveDdram at h
    split at h <;> cases h
    simp [Raised.code]
  have widen : ∀ {e : Answer} {all : List Event}, (∃ t, e = .next t ∧
      (Refused s t ∨ Failed s t all ∨ Completed s t all s.initState s.nibblePhase)) → ∃ t, e = .next t ∧
      (Refused s t ∨ Failed s t all ∨ Completed s t all s.initState s.nibblePhase ∨
        (s.initState = .uninit ∧ hostTag i = some 0x0 ∧ Completed s t all .ready (some .high))) := by
    rintro e all ⟨t, h, h1 | h1 | h1⟩
    · exact ⟨t, h, .inl h1⟩
    · exact ⟨t, h, .inr (.inl h1)⟩
    · exact ⟨t, h, .inr (.inr (.inl h1))⟩
  cases i with
  | clear => exact widen (word _ _)
  | home => exact widen (word _ _)
  | entryMode id sh => exact widen (word _ _)
  | displayControl d c b => exact widen (word _ _)
  | shift sc rl => exact widen (word _ _)
  | functionSet dl n f => exact widen (word _ _)
  | setCgramAddress a => exact widen (word _ _)
  | setDdramAddress a => exact widen (word _ _)
  | writeData d => exact widen (word _ _)
  | readBfAc bf ac => exact widen (statusRead_cases _ (fun u => ⟨_, u.samples, u.draws, rfl⟩) s)
  | init fs dc em =>
    simp only [exec, execInit]
    split
    · exact widen (fault _ _ (by simp [Raised.code]))
    · exact widen (fault _ _ (by simp [Raised.code]))
    · rename_i hu
      split
      · rename_i f hf
        refine widen (fault f _ ?_)
        unfold initCheck at hf
        repeat' split at hf
        all_goals cases hf
        all_goals simp [Raised.code]
      · have hl : ∀ m ∈ initMoves s.cfg fs dc em, legalMove s.cfg m := by
          intro m hm
          unfold initMoves fallbackMoves at hm
          split at hm
          · rename_i hfb
            simp only [List.cons_append, List.nil_append, List.mem_cons, List.not_mem_nil, or_false] at hm
            rcases hm with h | h | h | h | h | h | h | h | h | h <;> subst h <;>
              first
              | exact legalMove_send8 _ _
              | exact legalMove_sendL _ _ _
              | simp [legalMove, legalEvent, hfb]
          · simp only [List.nil_append, List.mem_cons, List.not_mem_nil, or_false] at hm
            rcases hm with h | h | h | h <;> subst h <;>
              first
              | exact legalMove_send8 _ _
              | exact legalMove_sendL _ _ _
        rcases runMoves_cases 0 (initMoves s.cfg fs dc em) s with ⟨l, d, hr⟩ | ⟨n, p, q, l, d, _, hc, hr⟩
        · rw [hr]
          exact ⟨_, rfl, .inr (.inr (.inr ⟨hu, rfl, none, _, _, l, s.samples, d,
            fun hv => moveEvents_legal hl hv, moveObserver_ok s.observer _, rfl⟩))⟩
        · rw [hr]
          exact ⟨_, rfl, .inr (.inl ⟨p, q, _, l, d, hc, List.take_prefix _ _,
            fun hv e he => moveEvents_legal hl hv e (List.mem_of_mem_take he), rfl⟩)⟩
  | clearCmd => exact widen (ready _ _ _ (word _ _))
  | homeCmd => exact widen (ready _ _ _ (word _ _))
  | setcg a =>
    refine widen (ready _ _ _ (resolved _ fun f h => ?_))
    unfold resolveCgram at h
    split at h <;> cases h
    simp [Raised.code]
  | setdd a => exact widen (ready _ _ _ (resolved _ (ddram a)))
  | cursor line col =>
    refine widen (ready _ _ _ (resolved _ fun f h => ?_))
    unfold resolveCursor at h
    split at h
    · cases h; simp [Raised.code]
    · split at h
      · cases h; simp [Raised.code]
      · exact ddram _ f h
  | puts bytes =>
    refine widen (ready _ _ _ ?_)
    obtain ⟨t, h, h'⟩ := transmit_cases (s := s) (ms := putsMoves s.cfg bytes) (by
      intro m hm
      simp only [putsMoves, List.mem_map] at hm
      obtain ⟨b, _, rfl⟩ := hm
      exact legalMove_sendL _ _ _)
    rw [putsMoves_events] at h'
    exact ⟨t, h, .inr h'⟩
  | status => exact widen (ready _ _ _ (statusRead_cases _ sampleBus_cases s))
  | txi b =>
    refine widen (ready 8 _ _ ?_)
    unfold sendChecked
    split
    · rename_i f h
      refine fault f _ ?_
      unfold txiCheck at h
      split at h
      · cases h
      · split at h <;> cases h
        simp [Raised.code]
    · exact word _ _
  | txd b => exact widen (ready _ _ _ (word _ _))
  | reservedA => exact widen (fault _ _ (by simp [Raised.code]))
  | reservedB => exact widen (fault _ _ (by simp [Raised.code]))
  | reservedC => exact widen (fault _ _ (by simp [Raised.code]))
  | reservedD => exact widen (fault _ _ (by simp [Raised.code]))
  | reservedE => exact widen (fault _ _ (by simp [Raised.code]))
  | reservedF => exact widen (fault _ _ (by simp [Raised.code]))

end Sys2Proof.Machine
end

