-- ==== Sys2Proof/Laws/PerInstr.lean ====
section
/-! SUPPORT. Per instruction: the encoder's packet lies in the row of spec/opcode_table.json that names the
instruction. -/

namespace Sys2Proof.Laws

/-- The mask and match of each constructor's row, as spec/opcode_table.json gives them: over ten bits for a bus word,
over the four-bit tag for a host command. -/
def tableRow : Instr → Nat × Nat
  | .clear => (0x3FF, 0x001)
  | .home => (0x3FE, 0x002)
  | .entryMode _ _ => (0x3FC, 0x004)
  | .displayControl _ _ _ => (0x3F8, 0x008)
  | .shift _ _ => (0x3F0, 0x010)
  | .functionSet _ _ _ => (0x3E0, 0x020)
  | .setCgramAddress _ => (0x3C0, 0x040)
  | .setDdramAddress _ => (0x380, 0x080)
  | .writeData _ => (0x300, 0x200)
  | .readBfAc _ _ => (0x300, 0x100)
  | .init _ _ _ => (0xF, 0x0)
  | .clearCmd => (0xF, 0x1)
  | .homeCmd => (0xF, 0x2)
  | .setcg _ => (0xF, 0x3)
  | .setdd _ => (0xF, 0x4)
  | .cursor _ _ => (0xF, 0x5)
  | .puts _ => (0xF, 0x6)
  | .status => (0xF, 0x7)
  | .txi _ => (0xF, 0x8)
  | .txd _ => (0xF, 0x9)
  | .reservedA => (0xF, 0xA)
  | .reservedB => (0xF, 0xB)
  | .reservedC => (0xF, 0xC)
  | .reservedD => (0xF, 0xD)
  | .reservedE => (0xF, 0xE)
  | .reservedF => (0xF, 0xF)

/-- The bits of a packet the opcode table numbers. -/
def packetBits : Packet → Nat
  | .busWord w => w.toNat
  | .command tag _ => tag.toNat

/-- The encoder's packet of `i` lies in `i`'s row: under the row's mask its bits are the row's match. -/
def TableRow.Statement (i : Instr) : Prop :=
  ∀ cfg : Config, packetBits (encode cfg i) &&& (tableRow i).1 = (tableRow i).2

theorem TableRow.clear : TableRow.Statement .clear := by
  intro cfg
  have h : packetBits (encode Config.atReset .clear) &&& (tableRow .clear).1
      = (tableRow .clear).2 := by
    decide +kernel
  exact h

theorem TableRow.home : TableRow.Statement .home := by
  intro cfg
  have h : packetBits (encode Config.atReset .home) &&& (tableRow .home).1
      = (tableRow .home).2 := by
    decide +kernel
  exact h

theorem TableRow.entryMode (id s : Bit) : TableRow.Statement (.entryMode id s) := by
  intro cfg
  have h : ∀ (id s : Bit), packetBits (encode Config.atReset (.entryMode id s)) &&& (tableRow (.entryMode id s)).1
      = (tableRow (.entryMode id s)).2 := by
    decide +kernel
  exact h id s

theorem TableRow.displayControl (d c b : Bit) : TableRow.Statement (.displayControl d c b) := by
  intro cfg
  have h : ∀ (d c b : Bit), packetBits (encode Config.atReset (.displayControl d c b)) &&& (tableRow (.displayControl d c b)).1
      = (tableRow (.displayControl d c b)).2 := by
    decide +kernel
  exact h d c b

theorem TableRow.shift (sc rl : Bit) : TableRow.Statement (.shift sc rl) := by
  intro cfg
  have h : ∀ (sc rl : Bit), packetBits (encode Config.atReset (.shift sc rl)) &&& (tableRow (.shift sc rl)).1
      = (tableRow (.shift sc rl)).2 := by
    decide +kernel
  exact h sc rl

theorem TableRow.functionSet (dl n f : Bit) : TableRow.Statement (.functionSet dl n f) := by
  intro cfg
  have h : ∀ (dl n f : Bit), packetBits (encode Config.atReset (.functionSet dl n f)) &&& (tableRow (.functionSet dl n f)).1
      = (tableRow (.functionSet dl n f)).2 := by
    decide +kernel
  exact h dl n f

theorem TableRow.setCgramAddress (a : BitVec 6) : TableRow.Statement (.setCgramAddress a) := by
  intro cfg
  have h : ∀ (a : BitVec 6), packetBits (encode Config.atReset (.setCgramAddress a)) &&& (tableRow (.setCgramAddress a)).1
      = (tableRow (.setCgramAddress a)).2 := by
    decide +kernel
  exact h a

theorem TableRow.setDdramAddress (a : BitVec 7) : TableRow.Statement (.setDdramAddress a) := by
  intro cfg
  have h : ∀ (a : BitVec 7), packetBits (encode Config.atReset (.setDdramAddress a)) &&& (tableRow (.setDdramAddress a)).1
      = (tableRow (.setDdramAddress a)).2 := by
    decide +kernel
  exact h a

theorem TableRow.writeData (d : Byte) : TableRow.Statement (.writeData d) := by
  intro cfg
  have h : ∀ (d : Byte), packetBits (encode Config.atReset (.writeData d)) &&& (tableRow (.writeData d)).1
      = (tableRow (.writeData d)).2 := by
    decide +kernel
  exact h d

theorem TableRow.readBfAc (bf : Bit) (ac : BitVec 7) : TableRow.Statement (.readBfAc bf ac) := by
  intro cfg
  have h : ∀ (bf : Bit) (ac : BitVec 7), packetBits (encode Config.atReset (.readBfAc bf ac)) &&& (tableRow (.readBfAc bf ac)).1
      = (tableRow (.readBfAc bf ac)).2 := by
    decide +kernel
  exact h bf ac

theorem TableRow.init (fs dc em : BusInstr) : TableRow.Statement (.init fs dc em) := by
  intro cfg
  show (0x0#4).toNat &&& 0xF = 0x0
  decide

theorem TableRow.clearCmd : TableRow.Statement .clearCmd := by
  intro cfg
  have h : packetBits (encode Config.atReset .clearCmd) &&& (tableRow .clearCmd).1
      = (tableRow .clearCmd).2 := by
    decide +kernel
  exact h

theorem TableRow.homeCmd : TableRow.Statement .homeCmd := by
  intro cfg
  have h : packetBits (encode Config.atReset .homeCmd) &&& (tableRow .homeCmd).1
      = (tableRow .homeCmd).2 := by
    decide +kernel
  exact h

theorem TableRow.setcg (a : Nat) : TableRow.Statement (.setcg a) := by
  intro cfg
  show (0x3#4).toNat &&& 0xF = 0x3
  decide

theorem TableRow.setdd (a : Nat) : TableRow.Statement (.setdd a) := by
  intro cfg
  show (0x4#4).toNat &&& 0xF = 0x4
  decide

theorem TableRow.cursor (line col : Nat) : TableRow.Statement (.cursor line col) := by
  intro cfg
  show (0x5#4).toNat &&& 0xF = 0x5
  decide

theorem TableRow.puts (bytes : List Byte) : TableRow.Statement (.puts bytes) := by
  intro cfg
  show (0x6#4).toNat &&& 0xF = 0x6
  decide

theorem TableRow.status : TableRow.Statement .status := by
  intro cfg
  have h : packetBits (encode Config.atReset .status) &&& (tableRow .status).1
      = (tableRow .status).2 := by
    decide +kernel
  exact h

theorem TableRow.txi (i : BusInstr) : TableRow.Statement (.txi i) := by
  intro cfg
  show (0x8#4).toNat &&& 0xF = 0x8
  decide

theorem TableRow.txd (b : Byte) : TableRow.Statement (.txd b) := by
  intro cfg
  have h : ∀ (b : Byte), packetBits (encode Config.atReset (.txd b)) &&& (tableRow (.txd b)).1
      = (tableRow (.txd b)).2 := by
    decide +kernel
  exact h b

theorem TableRow.reservedA : TableRow.Statement .reservedA := by
  intro cfg
  have h : packetBits (encode Config.atReset .reservedA) &&& (tableRow .reservedA).1
      = (tableRow .reservedA).2 := by
    decide +kernel
  exact h

theorem TableRow.reservedB : TableRow.Statement .reservedB := by
  intro cfg
  have h : packetBits (encode Config.atReset .reservedB) &&& (tableRow .reservedB).1
      = (tableRow .reservedB).2 := by
    decide +kernel
  exact h

theorem TableRow.reservedC : TableRow.Statement .reservedC := by
  intro cfg
  have h : packetBits (encode Config.atReset .reservedC) &&& (tableRow .reservedC).1
      = (tableRow .reservedC).2 := by
    decide +kernel
  exact h

theorem TableRow.reservedD : TableRow.Statement .reservedD := by
  intro cfg
  have h : packetBits (encode Config.atReset .reservedD) &&& (tableRow .reservedD).1
      = (tableRow .reservedD).2 := by
    decide +kernel
  exact h

theorem TableRow.reservedE : TableRow.Statement .reservedE := by
  intro cfg
  have h : packetBits (encode Config.atReset .reservedE) &&& (tableRow .reservedE).1
      = (tableRow .reservedE).2 := by
    decide +kernel
  exact h

theorem TableRow.reservedF : TableRow.Statement .reservedF := by
  intro cfg
  have h : packetBits (encode Config.atReset .reservedF) &&& (tableRow .reservedF).1
      = (tableRow .reservedF).2 := by
    decide +kernel
  exact h

end Sys2Proof.Laws
end

