-- ==== Sys2Proof/Tests/Slice0.lean ====
section
/-! SUPPORT. Small tests whose expected results come from spec/95_test_vectors.md or the rule named, and for every
statement with hypotheses a witness that meets them together. -/

namespace Sys2Proof.Tests

open Sys2Proof.Machine

/-- "PAR4" of 95_test_vectors.md: the reset configuration. -/
def par4 : Config := Config.atReset

/-- "PAR8" of 95_test_vectors.md. -/
def par8 : Config := { Config.atReset with ifaceWidth := .w8 }

/-- "I2C" of 95_test_vectors.md: default map, backlight on. -/
def i2c : Config := { Config.atReset with transport := .i2c, backlight := some 1#1 }

/-- A READY instance of a configuration. -/
def readyIn (cfg : Config) : State := { State.fresh cfg with initState := .ready }

/-- A READY instance whose sink can fail and answers so. -/
def answering (cfg : Config) (answers : List Bool) : State :=
  { State.fresh { cfg with sinkCanFail := true } with initState := .ready, sinkAnswers := answers }

/-- The next state, if there is one. -/
def after : Answer → Option State
  | .next s => some s
  | .fault _ => none
  | .refused _ => none

/-- The trace an answer leaves. -/
def traceAfter (a : Answer) : Option (List Event) := (after a).map State.trace

/-- The last response an answer leaves. -/
def responseAfter (a : Answer) : Option Response := (after a).bind fun s => s.responses.getLast?

/-- The bytes of I2C transactions. -/
def it (bytes : List Byte) : List Event := bytes.map (Event.it 0)

/-- A width-4 parallel transaction. -/
def pt4 (rs : Bit) (n : Nibble) : Event := .pt rs 0#1 (.d4 n)

/-- A width-8 parallel transaction. -/
def pt8 (rs : Bit) (b : Byte) : Event := .pt rs 0#1 (.d8 b)

/-! ### WellFormed: an ill-formed term for each check (R86) -/

theorem test_setcg_wide_ill_formed : wellFormed par4 (.setcg 256) = false := by decide
theorem test_setcg_widest_well_formed : wellFormed par4 (.setcg 255) = true := by decide
theorem test_setdd_wide_ill_formed : wellFormed par4 (.setdd 256) = false := by decide
theorem test_cursor_line_wide_ill_formed : wellFormed par4 (.cursor 256 0) = false := by decide
theorem test_cursor_col_wide_ill_formed : wellFormed par4 (.cursor 0 256) = false := by decide

/-! ### Decoding: a word of each row, bit by bit from R81, R83 and R84 -/

theorem test_decode_clear : decodeTableWord 16 0b0000000001 = some .clear := by decide
theorem test_decode_home : decodeTableWord 16 0b0000000010 = some .home := by decide
theorem test_decode_entryMode : decodeTableWord 16 0b0000000110 = some (.entryMode 1 0) := by decide
theorem test_decode_displayControl : decodeTableWord 16 0b0000001100 = some (.displayControl 1 0 0) := by decide
theorem test_decode_shift : decodeTableWord 16 0b0000010111 = some (.shift 0 1) := by decide
theorem test_decode_functionSet : decodeTableWord 16 0b0000101011 = some (.functionSet 0 1 0) := by decide
theorem test_decode_setCgramAddress : decodeTableWord 16 0b0001001000 = some (.setCgramAddress 8) := by decide
theorem test_decode_setDdramAddress : decodeTableWord 16 0b0011000000 = some (.setDdramAddress 64) := by decide
theorem test_decode_writeData : decodeTableWord 16 0b1001101001 = some (.writeData 0x69) := by decide
theorem test_decode_readBfAc : decodeTableWord 16 0b0110000101 = some (.readBfAc 1 5) := by decide
theorem test_decode_init : decodeTableWord 8 0b0000 = some (.init .clear .clear .clear) := by decide
theorem test_decode_init_operands :
    decode par4 (.command 0b0000#4 [5, 0b01000, 3, 0b100, 2, 0b10])
      = .ok (.init (.functionSet 0 1 0) (.displayCtl 1 0 0) (.entryMode 1 0)) := by decide
theorem test_decode_clearCmd : decodeTableWord 8 0b0001 = some .clearCmd := by decide
theorem test_decode_homeCmd : decodeTableWord 8 0b0010 = some .homeCmd := by decide
theorem test_decode_setcg : decode par4 (.command 0b0011#4 [8]) = .ok (.setcg 8) := by decide
theorem test_decode_setdd : decode par4 (.command 0b0100#4 [200]) = .ok (.setdd 200) := by decide
theorem test_decode_cursor : decode par4 (.command 0b0101#4 [1, 5]) = .ok (.cursor 1 5) := by decide
theorem test_decode_puts : decode par4 (.command 0b0110#4 [0x48, 0x69, 0]) = .ok (.puts [0x48, 0x69, 0]) := by decide
theorem test_decode_status : decodeTableWord 8 0b0111 = some .status := by decide
theorem test_decode_txi : decode par4 (.command 0b1000#4 [4, 0b0100]) = .ok (.txi (.shift 0 1)) := by decide
theorem test_decode_txd : decode par4 (.command 0b1001#4 [0x41]) = .ok (.txd 0x41) := by decide
theorem test_decode_reservedA : decodeTableWord 8 0b1010 = some .reservedA := by decide
theorem test_decode_reservedB : decodeTableWord 8 0b1011 = some .reservedB := by decide
theorem test_decode_reservedC : decodeTableWord 8 0b1100 = some .reservedC := by decide
theorem test_decode_reservedD : decodeTableWord 8 0b1101 = some .reservedD := by decide
theorem test_decode_reservedE : decodeTableWord 8 0b1110 = some .reservedE := by decide
theorem test_decode_reservedF : decodeTableWord 8 0b1111 = some .reservedF := by decide

/-- R89: what is no instruction is refused by name. -/
theorem test_refused_words :
    decode par4 (.busWord 0x000#10) = .error .noInstruction ∧ decode par4 (.busWord 0x345#10) = .error .readData := by
  decide

theorem test_refused_operands :
    decode par4 (.command 0x3#4 []) = .error .missingOperand
      ∧ decode par4 (.command 0x1#4 [0]) = .error .trailingOperand
      ∧ decode par4 (.command 0x8#4 [8, 0]) = .error .badClass
      ∧ decode par4 (.command 0x8#4 [3, 8]) = .error .badField
      ∧ decode par4 (.command 0x8#4 [1, 1]) = .error .dontCareBit
      ∧ decode { par4 with addrInBits := 6 } (.command 0x3#4 [64]) = .error .wideOperand := by decide

/-! ### Bus words (V1, V5, V6) -/

theorem test_exec_clear : traceAfter (exec .clear (readyIn i2c)) = some (it [0xC0, 0x80, 0xC1, 0x81]) := by decide
theorem test_exec_home : traceAfter (exec .home (readyIn par8)) = some [pt8 0 0x02] := by decide
theorem test_exec_entryMode :
    traceAfter (exec (.entryMode 1 0) (readyIn i2c)) = some (it [0xC0, 0x80, 0xC6, 0x86]) := by decide
theorem test_exec_displayControl :
    traceAfter (exec (.displayControl 1 0 0) (readyIn i2c)) = some (it [0xC0, 0x80, 0xCC, 0x8C]) := by decide
theorem test_exec_shift : traceAfter (exec (.shift 1 1) (readyIn par8)) = some [pt8 0 0x1C] := by decide
theorem test_exec_functionSet :
    traceAfter (exec (.functionSet 0 1 0) (readyIn par4)) = some [pt4 0 0x2, pt4 0 0x8] := by decide
theorem test_exec_setCgramAddress :
    traceAfter (exec (.setCgramAddress 63) (readyIn par8)) = some [pt8 0 0x7F] := by decide
theorem test_exec_setDdramAddress :
    traceAfter (exec (.setDdramAddress 64) (readyIn i2c)) = some (it [0xCC, 0x8C, 0xC0, 0x80]) := by decide
theorem test_exec_writeData :
    traceAfter (exec (.writeData 0x48) (readyIn i2c)) = some (it [0xD4, 0x94, 0xD8, 0x98]) := by decide
theorem test_exec_readBfAc :
    responseAfter (exec (.readBfAc 1 5) (readyIn { par8 with readMode := .sampled }))
      = some ⟨.ok, some ⟨1, 5⟩⟩ := by decide

/-- V6, the alternative map of G10. -/
theorem test_alternative_map :
    logicalFrame { i2c with i2cMap := ⟨0, 1, 2, 3, 4, 5, 6, 7⟩ } 1 0x48 = it [0x4D, 0x49, 0x8D, 0x89] := by decide

/-- V6 without backlight. -/
theorem test_no_backlight :
    logicalFrame { i2c with backlight := some 0 } 1 0xFF = it [0x5F, 0x1F, 0x5F, 0x1F] := by decide

/-! ### Host commands (P1 to P6, V7) -/

/-- P1 step 1. -/
theorem test_exec_init :
    traceAfter (exec (.init (.functionSet 0 1 0) (.displayCtl 1 0 0) (.entryMode 1 0)) (State.fresh par4))
      = some [pt4 0 0x2, pt4 0 0x2, pt4 0 0x8, pt4 0 0x0, pt4 0 0xC, pt4 0 0x0, pt4 0 0x6] := by decide

/-- P2 step 1, its first six events (T10). -/
theorem test_exec_init_fallback :
    (traceAfter (exec (.init (.functionSet 0 1 0) (.displayCtl 1 0 0) (.entryMode 1 0))
        (State.fresh { i2c with initFallback := true }))).map (List.take 6)
      = some (.delayReq 50 :: it [0xC3, 0x83, 0xC0, 0x80] ++ [.delayReq 5]) := by decide

theorem test_exec_clearCmd : traceAfter (exec .clearCmd (readyIn i2c)) = some (it [0xC0, 0x80, 0xC1, 0x81]) := by
  decide

/-- F18: the sink refuses the second byte. -/
theorem test_clearCmd_transport_failure :
    (after (exec .clearCmd (answering i2c [true, false]))).map
        (fun s => (s.trace, s.initState, s.firstFault, s.responses.map (·.status.number)))
      = some (it [0xC0, 0x80], .halted, some .transportFailure, [3]) := by decide

theorem test_exec_homeCmd : traceAfter (exec .homeCmd (readyIn par8)) = some [pt8 0 0x02] := by decide
theorem test_exec_setcg : traceAfter (exec (.setcg 8) (readyIn par4)) = some [pt4 0 0x4, pt4 0 0x8] := by decide

/-- F15. -/
theorem test_setcg_rejected :
    responseAfter (exec (.setcg 64) (readyIn par4)) = some ⟨.fault (.invalidAddress 64), none⟩ := by decide

/-- V3 under MASK. -/
theorem test_exec_setdd :
    traceAfter (exec (.setdd 200) (readyIn { par8 with addrPolicy := .mask })) = some [pt8 0 0xC8] := by decide

/-- V4, T9. -/
theorem test_exec_cursor : traceAfter (exec (.cursor 1 0) (readyIn par8)) = some [pt8 0 0xC0] := by decide

/-- F14: the line check comes before the address check. -/
theorem test_cursor_line_first :
    responseAfter (exec (.cursor 2 200) (readyIn par8)) = some ⟨.fault (.invalidLineIndex 2), none⟩ := by decide

/-- P1 step 2. -/
theorem test_exec_puts :
    traceAfter (exec (.puts [0x48, 0x69, 0x00]) (readyIn par4))
      = some [pt4 1 0x4, pt4 1 0x8, pt4 1 0x6, pt4 1 0x9] := by decide

/-- F21. -/
theorem test_puts_stops_at_terminator :
    traceAfter (exec (.puts [0x41, 0x00, 0x42]) (readyIn par4)) = some [pt4 1 0x4, pt4 1 0x1] := by decide

/-- F10. -/
theorem test_exec_status :
    (after (exec .status { readyIn { par8 with readMode := .sampled } with samples := [0x85] })).map
        (fun s => (s.trace, s.responses))
      = some ([.readCycle 0], [⟨.ok, some ⟨1, 5⟩⟩]) := by decide

/-- F7. -/
theorem test_status_unsupported :
    responseAfter (exec .status (readyIn par8)) = some ⟨.fault .readUnsupported, none⟩ := by decide

/-- F16. -/
theorem test_txi_wrong_width :
    responseAfter (exec (.txi (.functionSet 1 1 0)) (readyIn par4)) = some ⟨.fault (.invalidConfig .i), none⟩ := by
  decide

/-- F17. -/
theorem test_exec_txi : traceAfter (exec (.txi (.functionSet 0 0 1)) (readyIn par4)) = some [pt4 0 0x2, pt4 0 0x4] := by
  decide

/-- V6: TXD 0x00. -/
theorem test_exec_txd : traceAfter (exec (.txd 0x00) (readyIn i2c)) = some (it [0xD0, 0x90, 0xD0, 0x90]) := by decide

/-- F12: in a halted block a reserved tag is still `IllegalCommand`. -/
theorem test_reserved_in_halted :
    responseAfter (exec .reservedA { State.fresh par4 with initState := .halted })
      = some ⟨.fault (.illegalCommand 0xA), none⟩ := by decide

/-- F1 and F19. -/
theorem test_not_ready :
    responseAfter (exec .clearCmd (State.fresh par4)) = some ⟨.fault (.notReady 1), none⟩
      ∧ responseAfter (exec (.init .clear .clear .clear) { State.fresh par4 with initState := .halted })
        = some ⟨.fault (.notReady 0), none⟩ := by decide

/-- P3, observer after step 10 (`ac = 16` after eight rows from 8, here the last row). -/
theorem test_observer_cgram :
    (observeFrame ⟨some 15, some .cgram, some 1⟩ 1 0x00).ac = some 16 := by decide

/-- R93: GLYPH, and R92's text form. -/
theorem test_assembler :
    assembleText par4 "INIT 0x28, DisplayCtl(d=1,c=0,b=0), 0x06".toList
        = .ok [.init (.functionSet 0 1 0) (.displayCtl 1 0 0) (.entryMode 1 0)]
      ∧ assembleText par4 "PUTS \"Hi\" ; text".toList = .ok [.puts [0x48, 0x69, 0x00]]
      ∧ assembleText par4 "TXI 0x03".toList = .error .dontCareBit := by decide +kernel

/-- R92 writes no comma after the last byte or argument; a byte list may be empty (R176). -/
theorem test_assembler_commas :
    assembleText par4 "PUTS [1,]".toList = .error .badLine ∧ assembleText par4 "TXI SetCgram(8,)".toList = .error .badLine
      ∧ assembleText par4 "PUTS []".toList = .ok [.puts []]
      ∧ assembleText par4 "PUTS [1, 0x02]".toList = .ok [.puts [1, 2]]
      ∧ assembleText par4 "TXI SetCgram(8)".toList = .ok [.txi (.setCgram 8)] := by decide +kernel

/-- R232: of the controller only its width is known at reset; INIT makes its nibble phase known, a failure unknown. -/
theorem test_nibble_phase :
    State.reset.nibblePhase = none
      ∧ (after (exec (.init (.functionSet 0 1 0) (.displayCtl 1 0 0) (.entryMode 1 0)) (State.fresh par4))).map
          (fun s => s.nibblePhase) = some (some .high)
      ∧ (after (exec .clearCmd (answering i2c [false]))).map (fun s => s.nibblePhase) = some none := by decide

/-- A step from reset runs the placed instruction: each form of the opcode table once. -/
theorem test_step_runs_placed_word :
    (after (step (State.reset.withFetchWord 16 0x001))).map (fun s => (s.trace, s.k)) = some ([pt4 0 0x0, pt4 0 0x1], 1)
      ∧ (after (step (State.reset.withFetchWord 8 0x1))).map (fun s => (s.responses.map (·.status.number), s.k))
        = some ([5], 1) := by decide

/-- With nothing placed the host's list is exhausted (R34). -/
theorem test_reset_has_no_command : (match step State.reset with | .fault .endOfRun => true | _ => false) = true := by
  decide

/-! ### Witnesses: for each statement with hypotheses, a state and operands that meet them -/

/-- A state whose sink can fail and takes the next twelve transactions. -/
def taking (cfg : Config) : State := answering cfg (List.replicate 12 true)

/-- A fresh instance whose host hands over CLEAR. -/
def clearNext : State := { State.reset with program := [.command 0x1#4 []] }

theorem witness_DecodeOfEncodeIsIdentity : wellFormed par4 (.cursor 255 255) = true := by decide
theorem witness_DecodedInstructionIsWellFormed :
    decode par4 (.command 0x5#4 [255, 255]) = .ok (.cursor 255 255) := by decide
theorem witness_ByteDecodeReadsHighestBit : dec 0x28#8 = some (.functionSet 0 1 0) := by decide
theorem witness_BusWordForms : dec 0x2B#8 = some (.functionSet 0 1 0) := by decide
theorem witness_HostTagDecidesCommand :
    decode par4 (.command 0x7#4 []) = .ok .status ∧ hostTag .status = some 7 := by decide
theorem witness_CgramAddressResolves :
    (par4.addrPolicy = .reject ∧ 63 < 64) ∧ (par4.addrPolicy = .mask ∨ 63 ≤ 63) := by decide
theorem witness_DdramAddressResolves :
    (par4.addrPolicy = .reject ∧ 127 < 128) ∧ (par4.addrPolicy = .mask ∨ 127 ≤ 127) := by decide
theorem witness_CursorAddressResolves :
    configValid par4 = true ∧ par4.lineCount ≤ 2 ∧ 1 < par4.lineCount ∧ 64 + 63 ≤ 127 := by decide
theorem witness_Parallel8 : par8.transport = .parallel ∧ par8.ifaceWidth = .w8 := by decide
theorem witness_Parallel4 : par4.transport = .parallel ∧ par4.ifaceWidth = .w4 := by decide
theorem witness_I2cFrame : configValid i2c = true ∧ i2c.transport = .i2c := by decide
theorem witness_ResolvedWordMasked : 63 < 64 ∧ 127 < 128 ∧ par4.addrPolicy = .reject := by decide
theorem witness_EightBitPathFrames :
    (par8.transport = .parallel ∧ par8.ifaceWidth = .w8) ∧ (par4.transport = .parallel ∧ par4.ifaceWidth = .w4)
      ∧ i2c.transport = .i2c := by decide
theorem witness_DefaultMapByteValue : i2c.i2cMap = {} ∧ i2c.backlight = some 1#1 := by decide
theorem witness_XmitSendsAll : answersOk (framePar4 0 0x01).length (taking par4) = true := by decide
theorem witness_XmitStopsAtFirstRefusal :
    (answering i2c [true, false, true]).cfg.sinkCanFail = true ∧ 1 < (frameI2c i2c 0 0x01).length
      ∧ (answering i2c [true, false, true]).sinkAnswers = List.replicate 1 true ++ false :: [true] := by decide
theorem witness_InstructionWordsComplete :
    answersOk (logicalFrame i2c 0#1 (enc .home)).length (taking i2c) = true
      ∧ answersOk (logicalFrame par4 0#1 (enc (.setDdram 127))).length State.reset = true := by decide
theorem witness_DataWordCompletes : answersOk (logicalFrame i2c 1#1 0xFF#8).length (taking i2c) = true := by decide
theorem witness_ReadWordCompletes :
    ((taking { par8 with readMode := .sampled }).cfg.readMode = .sampled
        ∧ (taking { par8 with readMode := .sampled }).cfg.transport = .parallel
        ∧ answersOk 1 (taking { par8 with readMode := .sampled }) = true)
      ∧ (readyIn par8).cfg.readMode = .unsupported
      ∧ ((readyIn { i2c with readMode := .sampled }).cfg.readMode = .sampled
        ∧ (readyIn { i2c with readMode := .sampled }).cfg.transport = .i2c)
      ∧ (readyIn { par8 with readMode := .stubZero }).cfg.readMode = .stubZero := by decide

/-- A fresh instance with the fallback, on a sink that can fail and takes all ten transactions of INIT. -/
def initTaking : State :=
  { State.fresh { par4 with initFallback := true, sinkCanFail := true } with sinkAnswers := List.replicate 10 true }

theorem witness_InitCompletes :
    initTaking.initState = .uninit
      ∧ answersOk
          (((if initTaking.cfg.initFallback then
              [Event.delayReq initTaking.cfg.initDelaysMs.first] ++ eightBitFrame initTaking.cfg initTaking.cfg.fs8
                ++ [Event.delayReq initTaking.cfg.initDelaysMs.second] ++ eightBitFrame initTaking.cfg initTaking.cfg.fs8
                ++ [Event.delayReq initTaking.cfg.initDelaysMs.third] ++ eightBitFrame initTaking.cfg initTaking.cfg.fs8
            else [])
            ++ eightBitFrame initTaking.cfg (enc (.functionSet (dlCfg initTaking.cfg) 1 0))
            ++ logicalFrame initTaking.cfg 0#1 (enc (.functionSet (dlCfg initTaking.cfg) 1 0))
            ++ logicalFrame initTaking.cfg 0#1 (enc (.displayCtl 1 0 0))
            ++ logicalFrame initTaking.cfg 0#1 (enc (.entryMode 1 0))).filter isTransaction).length initTaking = true := by
  decide
theorem witness_InitRefusals :
    ({ State.fresh par4 with initState := .halted } : State).initState = .halted
      ∧ (readyIn par4).initState = .ready ∧ (State.fresh par4).initState = .uninit
      ∧ BusInstr.clear.cls ≠ .functionSet ∧ BusInstr.clear.cls ≠ .displayCtl ∧ BusInstr.clear.cls ≠ .entryMode
      ∧ (BusInstr.functionSet 1 1 0).cls = .functionSet ∧ (BusInstr.displayCtl 1 0 0).cls = .displayCtl
      ∧ (BusInstr.entryMode 1 0).cls = .entryMode
      ∧ (1#1 : Bit) ≠ (if par4.ifaceWidth = .w8 then 1#1 else 0#1) := by decide
theorem witness_CommandsOutsideReady :
    hostTag (.setcg 300) = some 3 ∧ (State.fresh par4).initState ≠ .ready ∧ hostTag (.txd 0) = some 9 := by decide
theorem witness_ClearCommandCompletes :
    (taking i2c).initState = .ready ∧ answersOk (logicalFrame i2c 0#1 0x01#8).length (taking i2c) = true := by decide
theorem witness_HomeCommandCompletes :
    (taking par8).initState = .ready ∧ answersOk (logicalFrame par8 0#1 0x02#8).length (taking par8) = true := by decide
theorem witness_SetcgCommand :
    (taking par4).initState = .ready ∧ (taking par4).cfg.addrPolicy = .reject ∧ 63 < 64 ∧ (0x7F#8 : Word).toNat = 0x40 + 63 % 64
      ∧ ((taking par4).cfg.addrPolicy = .mask ∨ 63 ≤ 63)
      ∧ answersOk (logicalFrame (taking par4).cfg 0#1 0x7F#8).length (taking par4) = true := by decide
theorem witness_SetddCommand :
    (taking par4).initState = .ready ∧ (taking par4).cfg.addrPolicy = .reject ∧ 127 < 128
      ∧ (0xFF#8 : Word).toNat = 0x80 + 127 % 128 ∧ ((taking par4).cfg.addrPolicy = .mask ∨ 127 ≤ 127)
      ∧ answersOk (logicalFrame (taking par4).cfg 0#1 0xFF#8).length (taking par4) = true := by decide
theorem witness_CursorCommand :
    (taking par4).initState = .ready ∧ (taking par4).cfg.lineCount ≤ 2 ∧ 1 < (taking par4).cfg.lineCount
      ∧ (taking par4).cfg.lineOffsets[1]? = some 64
      ∧ (taking par4).cfg.addrPolicy = .reject ∧ 127 < 64 + 64 ∧ (0xFF#8 : Word).toNat = 0x80 + (63 + 64) % 128
      ∧ ((taking par4).cfg.addrPolicy = .mask ∨ 63 + 64 ≤ 127)
      ∧ answersOk (logicalFrame (taking par4).cfg 0#1 0xFF#8).length (taking par4) = true := by decide
theorem witness_PutsSendsBytesBeforeTerminator :
    (taking par4).initState = .ready ∧ (taking par4).cfg.terminator ∉ [0x48#8, 0x69#8]
      ∧ ([0x00#8, 0x42#8].head? = some (taking par4).cfg.terminator)
      ∧ answersOk ([0x48#8, 0x69#8].flatMap (logicalFrame (taking par4).cfg 1#1)).length (taking par4) = true := by
  decide

/-- A READY instance whose sink takes the next transactions and whose bus gives 0x85 next. -/
def sampling : State := { taking { par8 with readMode := .sampled } with samples := [0x85] }

theorem witness_StatusCommandByReadMode :
    ((readyIn par4).initState = .ready ∧ (readyIn par4).cfg.readMode = .unsupported)
      ∧ ((readyIn { i2c with readMode := .sampled }).initState = .ready
        ∧ (readyIn { i2c with readMode := .sampled }).cfg.readMode = .sampled
        ∧ (readyIn { i2c with readMode := .sampled }).cfg.transport = .i2c)
      ∧ ((readyIn { par4 with readMode := .stubZero }).initState = .ready
        ∧ (readyIn { par4 with readMode := .stubZero }).cfg.readMode = .stubZero)
      ∧ (sampling.initState = .ready ∧ sampling.cfg.readMode = .sampled ∧ sampling.cfg.transport = .parallel
        ∧ answersOk 1 sampling = true ∧ sampling.samples = [0x85])
      ∧ ((taking { par8 with readMode := .sampled }).initState = .ready
        ∧ (taking { par8 with readMode := .sampled }).cfg.readMode = .sampled
        ∧ (taking { par8 with readMode := .sampled }).cfg.transport = .parallel
        ∧ answersOk 1 (taking { par8 with readMode := .sampled }) = true
        ∧ (taking { par8 with readMode := .sampled }).samples = []) := by decide
theorem witness_TxiCommand :
    (taking par4).initState = .ready ∧ (1#1 : Bit) ≠ (if (taking par4).cfg.ifaceWidth = .w8 then 1#1 else 0#1)
      ∧ (0#1 : Bit) = (if (taking par4).cfg.ifaceWidth = .w8 then 1#1 else 0#1)
      ∧ answersOk (logicalFrame (taking par4).cfg 0#1 (enc (.functionSet 0 0 1))).length (taking par4) = true := by decide
theorem witness_TxdCommandCompletes :
    (taking i2c).initState = .ready ∧ answersOk (logicalFrame i2c 1#1 0x00#8).length (taking i2c) = true := by decide

/-- A validation fault, and a transport failure at index 1 of the command. -/
theorem witness_FaultsArePrecise :
    (∃ t, exec (.setcg 64) (readyIn par4) = .next t
        ∧ t.responses = (readyIn par4).responses ++ [⟨.fault (.invalidAddress 64), none⟩])
      ∧ ∃ t, exec .clearCmd (answering i2c [true, false]) = .next t
        ∧ t.responses = (answering i2c [true, false]).responses ++ [⟨.fault (.transportFailure 1 1), none⟩] :=
  ⟨⟨_, rfl, rfl⟩, ⟨_, rfl, rfl⟩⟩

/-- A transport failure in a later frame of a command: index 0 of its list, index 2 of the command. -/
theorem test_transport_failure_indexes :
    responseAfter (exec (.puts [0x48, 0x69]) (answering par4 [true, true, false]))
      = some ⟨.fault (.transportFailure 0 2), none⟩ := by decide

/-- CLEAR on a sink that takes both transactions ends with `OK`. -/
theorem witness_OkMeansEveryEventWasEmitted :
    ∃ t, exec .clearCmd (taking par4) = .next t ∧ t.responses = (taking par4).responses ++ [⟨.ok, none⟩] :=
  ⟨_, rfl, rfl⟩

theorem witness_FaultsAreSticky :
    ∃ t, exec .clearCmd { State.fresh par4 with faults := [.illegalCommand], firstFault := some .illegalCommand }
        = .next t ∧ FaultCode.illegalCommand ∈ ([.illegalCommand] : List FaultCode) := ⟨_, rfl, by decide⟩
theorem witness_ConstructionGivesResetState :
    configValid i2c = true
      ∧ ∃ v, exec .clearCmd (State.fresh i2c) = .next v ∧ hostTag .clearCmd = some 1 ∧ (1 : Nat) ≠ 0
        ∧ (State.fresh i2c).initState = .uninit := ⟨by decide, _, rfl, rfl, by decide, rfl⟩
theorem witness_InvalidConfiguration :
    configValid { par4 with lineOffsets := [0, 128] } = false ∧ configValid { i2c with ifaceWidth := .w8 } = false
      ∧ configValid { par4 with lineCount := 0, lineOffsets := [] } = false := by decide
theorem witness_ConstructedStateMeetsInvariant : construct i2c = some (State.fresh i2c) := by decide

/-- The invariant's hypotheses: a fresh instance, whose step is a next state. -/
theorem witness_StepKeepsInvariant : Inv clearNext ∧ ∃ t, step clearNext = .next t := by
  refine ⟨⟨by decide, ⟨by decide, fun c => ?_, rfl⟩, ?_, ?_, by decide, rfl, rfl, ?_⟩, _, rfl⟩
  · constructor
    · intro h
      cases h
    · intro h
      obtain ⟨r, h, _⟩ := h
      cases h
  · constructor
    · intro h
      cases h
    · intro h
      cases h
  · intro h; cases h
  · intro h; cases h

theorem witness_StepAdvances : ∃ t, step clearNext = .next t ∧ t.k = 1 := ⟨_, rfl, rfl⟩
theorem witness_StepRunsDecodedInstruction :
    configValid clearNext.cfg = true ∧ clearNext.program[clearNext.k]? = some (.command 0x1#4 [])
      ∧ decode clearNext.cfg (.command 0x1#4 []) = .ok .clearCmd := by decide
theorem witness_ExecAnswers :
    ∃ t, exec (.init (.functionSet 0 1 0) (.displayCtl 1 0 0) (.entryMode 1 0)) (State.fresh par4) = .next t
      ∧ t.initState = .ready := ⟨_, rfl, rfl⟩
theorem witness_HaltedBlockRefuses :
    hostTag .homeCmd = some 2 ∧ hostTag .reservedF = some 15
      ∧ ({ State.fresh par4 with initState := .halted } : State).initState = .halted := by decide
theorem witness_OnlyInitEmitsBeforeReady :
    (State.fresh par4).initState = .uninit
      ∧ hostTag (.init (.functionSet 0 1 0) (.displayCtl 1 0 0) (.entryMode 1 0)) = some 0
      ∧ traceAfter (exec (.init (.functionSet 0 1 0) (.displayCtl 1 0 0) (.entryMode 1 0)) (State.fresh par4))
        ≠ some (State.fresh par4).trace := by decide
theorem witness_DelaysComeOnlyFromFallback :
    (∃ t, exec (.txd 0x41) (readyIn par4) = .next t) ∧ hostTag (.txd 0x41) ≠ some 0x0 ∧ par4.initFallback = false :=
  ⟨⟨_, rfl⟩, by decide, by decide⟩
theorem witness_ReliableSinkNeverHalts : par4.sinkCanFail = false ∧ ∃ t, exec .clear (readyIn par4) = .next t :=
  ⟨by decide, _, rfl⟩
theorem witness_ClearTwice :
    (taking i2c).initState = .ready ∧ answersOk (2 * (logicalFrame i2c 0#1 0x01#8).length) (taking i2c) = true := by
  decide
theorem witness_InitThenHi :
    (State.fresh i2c).initState = .uninit ∧ i2c.initFallback = false ∧ i2c.sinkCanFail = false
      ∧ i2c.terminator ≠ 0x48#8 ∧ i2c.terminator ≠ 0x69#8 := by decide

/-- Each clause of the observer's ranges at its edges. -/
theorem witness_ObserverStepRanges :
    (⟨none, some .cgram, some 1⟩ : Observer).ac = none ∧ (⟨some 0, none, some 1⟩ : Observer).space = none
      ∧ (⟨some 0, some .ddram, none⟩ : Observer).id = none
      ∧ (0x26#7).toNat ≤ 0x26 ∧ 0x40 ≤ (0x40#7).toNat ∧ (0x66#7).toNat ≤ 0x66
      ∧ 0x01 ≤ (0x01#7).toNat ∧ 0x41 ≤ (0x41#7).toNat ∧ (0x67#7).toNat ≤ 0x67
      ∧ (0x26 < (0x27#7).toNat ∧ (0x27#7).toNat < 0x40) ∧ 0x66 < (0x67#7).toNat
      ∧ (0x27 < (0x40#7).toNat ∧ (0x40#7).toNat < 0x41) ∧ 0x67 < (0x68#7).toNat ∧ (0x00#7).toNat = 0 := by decide
theorem witness_PlacedWordIsRunNext :
    configValid State.reset.cfg = true ∧ tablePacket State.reset.cfg 16 0x028 = some (.busWord 0x028#10)
      ∧ decode State.reset.cfg (.busWord 0x028#10) = .ok (.functionSet 0 1 0)
      ∧ tablePacket State.reset.cfg 8 0x3 = some (.command 0x3#4 [0])
      ∧ decode State.reset.cfg (.command 0x3#4 [0]) = .ok (.setcg 0) := by decide
theorem witness_PseudoInstructionsExpand : 7 < 8 ∧ 8 * 7 < 2 ^ par4.addrInBits := by decide
theorem witness_AssembledProgramDecodes :
    assemble par4 [.init (.raw 0x28) (.raw 0x0C) (.raw 0x06), .putsText ['H', 'i']]
      = .ok [.init (.functionSet 0 1 0) (.displayCtl 1 0 0) (.entryMode 1 0), .puts [0x48, 0x69, 0x00]] := by decide

end Sys2Proof.Tests
end

section
/-! SUPPORT. What the validity check R6 asks of a configuration, as a proposition. -/

namespace Sys2Proof.Machine

/-- R6's two clauses on an I2C instance: a transport that is not parallel is I2C, and a backlight is given where it is
not absent. -/
theorem parallel_or_i2cReady_iff (cfg : Config) :
    cfg.transport = .parallel ∨ cfg.ifaceWidth = .w4 ∧ cfg.backlight.isSome = true ↔
      (cfg.transport = .i2c → cfg.ifaceWidth = .w4 ∧ cfg.backlight ≠ none) := by
  rw [Option.isSome_iff_ne_none]
  cases cfg.transport <;> simp

/-- R6: the Boolean check is the conjunction of its clauses, in R6's order. -/
theorem clausesOfR6_iff (cfg : Config) :
    clausesOfR6 cfg = true ↔
      1 ≤ cfg.lineCount ∧ cfg.lineOffsets.length = cfg.lineCount ∧ (∀ o ∈ cfg.lineOffsets, o ≤ 127)
        ∧ (cfg.transport = .i2c → cfg.ifaceWidth = .w4 ∧ cfg.backlight ≠ none)
        ∧ (∀ p ∈ mapPositions cfg.i2cMap, p < 8) ∧ (mapPositions cfg.i2cMap).Nodup := by
  simp only [clausesOfR6, Bool.and_eq_true, Bool.or_eq_true, List.all_eq_true, decide_eq_true_eq,
    parallel_or_i2cReady_iff, and_assoc]

/-- R6, R22: a valid configuration meets R6, and its three operand widths are at least 1. -/
theorem configValid_iff (cfg : Config) :
    configValid cfg = true ↔
      clausesOfR6 cfg = true ∧ 1 ≤ cfg.addrInBits ∧ 1 ≤ cfg.colBits ∧ 1 ≤ cfg.lineInBits := by
  simp only [configValid, Bool.and_eq_true, decide_eq_true_eq, and_assoc]

/-- Settles O42: the check is R6's clauses and R22's widths; the statement bounds a position by 7 where the model says
below 8, and names distinctness before the bound. -/
theorem validConfigurationMeetsEveryClause : Obligations.ValidConfigurationMeetsEveryClause := by
  intro cfg
  have below_eight_iff : (∀ p ∈ mapPositions cfg.i2cMap, p < 8) ↔ ∀ p ∈ mapPositions cfg.i2cMap, p ≤ 7 :=
    forall₂_congr fun _ _ => Nat.lt_succ_iff
  rw [configValid_iff, clausesOfR6_iff, below_eight_iff]
  simp only [and_assoc, and_left_comm]

end Sys2Proof.Machine
end

section
/-! SUPPORT. What one instruction and one step do to each part of the state: the sequencer, the fault record, the trace,
the observer and the host's part, each said once from `exec_cases`. -/

namespace Sys2Proof.Machine

/-- Only INIT has tag 0 (R84). -/
theorem eq_init_of_hostTag_zero {i : Instr} (h : hostTag i = some 0x0) : ∃ fs dc em, i = .init fs dc em := by
  cases i with
  | init fs dc em => exact ⟨fs, dc, em, rfl⟩
  | _ => simp [hostTag] at h

/-- R171: INIT returns a fault, or it ran in UNINIT and the block is ready. -/
theorem exec_init_next {fs dc em : BusInstr} {s t : State} (h : exec (.init fs dc em) s = .next t) :
    (∃ f, t.responses = s.responses ++ [⟨.fault f, none⟩]) ∨ (s.initState = .uninit ∧ t.initState = .ready) := by
  have fault : ∀ f, raise f s = .next t → ∃ f, t.responses = s.responses ++ [⟨.fault f, none⟩] := by
    rintro f ⟨⟩
    exact ⟨f, rfl⟩
  simp only [exec, execInit] at h
  split at h
  · exact .inl (fault _ h)
  · exact .inl (fault _ h)
  · rename_i uninit
    split at h
    · exact .inl (fault _ h)
    · rcases runMoves_cases 0 (initMoves s.cfg fs dc em) s with ⟨l, d, hr⟩ | ⟨n, p, q, l, d, -, -, hr⟩
      · rw [hr] at h
        cases h
        exact .inr ⟨uninit, rfl⟩
      · rw [hr] at h
        cases h
        exact .inl ⟨_, rfl⟩

/-- The sequencer's state and the nibble phase a completed instruction leaves (R24): INIT ran in UNINIT and leaves READY,
any other instruction leaves both alone. -/
def SequencerMove (i : Instr) (s : State) (init : InitState) (phase : Option NibbleHalf) : Prop :=
  (hostTag i ≠ some 0x0 ∧ init = s.initState ∧ phase = s.nibblePhase) ∨
    (hostTag i = some 0x0 ∧ s.initState = .uninit ∧ init = .ready ∧ phase = some .high)

/-- `exec_cases` for an instruction known to have answered `t`; INIT completes only by its own move. -/
theorem exec_next_cases {i : Instr} {s t : State} (h : exec i s = .next t) :
    Refused s t ∨ Failed s t (commandEvents s.cfg i) ∨
      ∃ init phase, Completed s t (commandEvents s.cfg i) init phase ∧ SequencerMove i s init phase := by
  obtain ⟨t', h', hc⟩ := exec_cases i s
  obtain rfl : t' = t := Host.Outcome.next.inj (h'.symm.trans h)
  rcases hc with hr | hf | hc | ⟨huninit, htag, hc⟩
  · exact .inl hr
  · exact .inr (.inl hf)
  · refine .inr (.inr ⟨_, _, hc, .inl ⟨fun htag => ?_, rfl, rfl⟩⟩)
    obtain ⟨fs, dc, em, rfl⟩ := eq_init_of_hostTag_zero htag
    obtain ⟨res, o, w, l, m, d, -, -, rfl⟩ := hc
    rcases exec_init_next h with ⟨f, hf⟩ | ⟨huninit, hready⟩
    · simp at hf
    · simp [huninit] at hready
  · exact .inr (.inr ⟨_, _, hc, .inr ⟨htag, huninit, rfl, rfl⟩⟩)

/-- R22, R21: no instruction writes the configuration or the host's program and position. -/
theorem exec_host_frame {i : Instr} {s t : State} (h : exec i s = .next t) :
    t.cfg = s.cfg ∧ t.program = s.program ∧ t.k = s.k := by
  rcases exec_next_cases h with ⟨f, -, rfl⟩ | ⟨p, q, ev, l, d, -, -, -, rfl⟩ |
    ⟨init, phase, ⟨res, o, w, l, m, d, -, -, rfl⟩, -⟩
  · exact ⟨rfl, rfl, rfl⟩
  · exact ⟨rfl, rfl, rfl⟩
  · exact ⟨rfl, rfl, rfl⟩

/-- R25, R28, R201: an instruction returns one fault and records it, or one `OK` and leaves the record alone. -/
theorem exec_fault_record {i : Instr} {s t : State} (h : exec i s = .next t) :
    (∃ f, t.responses = s.responses ++ [⟨.fault f, none⟩] ∧ t.faults = insertCode f.code s.faults
      ∧ t.firstFault = s.firstFault.or (some f.code)) ∨
    (∃ res, t.responses = s.responses ++ [⟨.ok, res⟩] ∧ t.faults = s.faults ∧ t.firstFault = s.firstFault) := by
  rcases exec_next_cases h with ⟨f, -, rfl⟩ | ⟨p, q, ev, l, d, -, -, -, rfl⟩ |
    ⟨init, phase, ⟨res, o, w, l, m, d, -, -, rfl⟩, -⟩
  · exact .inl ⟨f, rfl, rfl, raised_firstFault f s⟩
  · exact .inl ⟨.transportFailure p q, rfl, rfl, raised_firstFault _ _⟩
  · exact .inr ⟨res, rfl, rfl, rfl⟩

/-- R28: an instruction gives the host exactly one response. -/
theorem exec_responses {i : Instr} {s t : State} (h : exec i s = .next t) :
    ∃ r, t.responses = s.responses ++ [r] := by
  rcases exec_fault_record h with ⟨f, hr, -⟩ | ⟨res, hr, -⟩
  · exact ⟨_, hr⟩
  · exact ⟨_, hr⟩

/-- R26, R151: an instruction appends the first of its own events to the trace, and a valid instance can emit each. -/
theorem exec_trace {i : Instr} {s t : State} (h : exec i s = .next t) :
    ∃ ev, ev <+: commandEvents s.cfg i ∧ (configValid s.cfg = true → ∀ e ∈ ev, legalEvent s.cfg e = true)
      ∧ t.trace = s.trace ++ ev := by
  rcases exec_next_cases h with ⟨f, -, rfl⟩ | ⟨p, q, ev, l, d, -, hpre, hlegal, rfl⟩ |
    ⟨init, phase, ⟨res, o, w, l, m, d, hlegal, -, rfl⟩, -⟩
  · exact ⟨[], List.nil_prefix, by simp, by simp⟩
  · exact ⟨ev, hpre, hlegal, rfl⟩
  · exact ⟨_, List.prefix_rfl, hlegal, rfl⟩

/-- R24: what the one response of an instruction tells of the sequencer. -/
theorem exec_sequencer {i : Instr} {s t : State} {r : Response} (h : exec i s = .next t)
    (hr : t.responses = s.responses ++ [r]) :
    (r.faultCode = some .transportFailure ∧ t.initState = .halted) ∨
    (r.faultCode = none ∧ hostTag i = some 0x0 ∧ s.initState = .uninit ∧ t.initState = .ready) ∨
    (r.faultCode ≠ some .transportFailure ∧ ¬ (hostTag i = some 0x0 ∧ r.faultCode = none)
      ∧ t.initState = s.initState) := by
  rcases exec_next_cases h with ⟨f, hf, rfl⟩ | ⟨p, q, ev, l, d, -, -, -, rfl⟩ |
    ⟨init, phase, ⟨res, o, w, l, m, d, -, -, rfl⟩, hmove⟩
  · obtain rfl : _ = r := List.singleton_inj.1 (List.append_cancel_left hr)
    exact .inr (.inr ⟨by simpa [Response.faultCode] using hf, by simp [Response.faultCode], rfl⟩)
  · obtain rfl : _ = r := List.singleton_inj.1 (List.append_cancel_left hr)
    exact .inl ⟨rfl, rfl⟩
  · obtain rfl : _ = r := List.singleton_inj.1 (List.append_cancel_left hr)
    rcases hmove with ⟨htag, rfl, rfl⟩ | ⟨htag, huninit, rfl, rfl⟩
    · exact .inr (.inr ⟨by simp [Response.faultCode], fun hi => htag hi.1, rfl⟩)
    · exact .inr (.inl ⟨rfl, htag, huninit, rfl⟩)

/-- R20, R21, R34, R206: a step answers exactly where a valid instance has a next packet that decodes, and it answers
what that instruction does, the host's position one further. -/
theorem step_next_iff {s t : State} :
    step s = .next t ↔ configValid s.cfg = true ∧ ∃ p i u, fetch s = some p ∧ decode s.cfg p = .ok i
      ∧ exec i s = .next u ∧ t = advance u := by
  constructor
  · intro h
    unfold step at h
    split at h
    · rename_i hvalid
      split at h
      · cases h
      · rename_i p hfetch
        split at h
        · cases h
        · rename_i i hdecode
          obtain ⟨u, hu, -⟩ := exec_cases i s
          rw [hu] at h
          cases h
          exact ⟨hvalid, p, i, u, hfetch, hdecode, hu, rfl⟩
    · cases h
  · rintro ⟨hvalid, p, i, u, hfetch, hdecode, hu, rfl⟩
    simp [step, hvalid, hfetch, hdecode, hu, advanceAnswer]

end Sys2Proof.Machine
end

section
/-! SUPPORT. Each clause of the invariant `Inv`, kept by every instruction, and O44 from them. -/

namespace Sys2Proof.Machine

/-- R25: recording a returned fault keeps the record that of the responses. -/
theorem faultRecordOk_of_fault {s t : State} {f : Raised} (h : faultRecordOk s)
    (hr : t.responses = s.responses ++ [⟨.fault f, none⟩]) (hfaults : t.faults = insertCode f.code s.faults)
    (hfirst : t.firstFault = s.firstFault.or (some f.code)) : faultRecordOk t := by
  obtain ⟨-, hmem, hfst⟩ := h
  refine ⟨hfaults ▸ insertCode_wf _ _, fun c => ?_, ?_⟩
  · rw [hfaults, mem_insertCode, hmem, hr]
    simp [Response.faultCode, or_and_right, exists_or, or_comm, eq_comm]
  · rw [hfirst, hfst, hr, List.findSome?_append]
    rfl

/-- R25: an `OK` keeps the record that of the responses. -/
theorem faultRecordOk_of_ok {s t : State} {res : Option ReadResult} (h : faultRecordOk s)
    (hr : t.responses = s.responses ++ [⟨.ok, res⟩]) (hfaults : t.faults = s.faults)
    (hfirst : t.firstFault = s.firstFault) : faultRecordOk t := by
  obtain ⟨hwf, hmem, hfst⟩ := h
  refine ⟨hfaults ▸ hwf, fun c => ?_, ?_⟩
  · rw [hfaults, hmem, hr]
    simp [Response.faultCode, or_and_right, exists_or]
  · rw [hfirst, hfst, hr, List.findSome?_append]
    simp [Response.faultCode]

theorem exec_keeps_faultRecordOk {i : Instr} {s t : State} (h : exec i s = .next t) (hs : faultRecordOk s) :
    faultRecordOk t := by
  rcases exec_fault_record h with ⟨f, hr, hfaults, hfirst⟩ | ⟨res, hr, hfaults, hfirst⟩
  · exact faultRecordOk_of_fault hs hr hfaults hfirst
  · exact faultRecordOk_of_ok hs hr hfaults hfirst

/-- R24: halted exactly when a transport failure is recorded. -/
theorem exec_keeps_halted_iff {i : Instr} {s t : State} (h : exec i s = .next t)
    (hs : s.initState = .halted ↔ FaultCode.transportFailure ∈ s.faults) :
    t.initState = .halted ↔ FaultCode.transportFailure ∈ t.faults := by
  rcases exec_next_cases h with ⟨f, hf, rfl⟩ | ⟨p, q, ev, l, d, -, -, -, rfl⟩ |
    ⟨init, phase, ⟨res, o, w, l, m, d, -, -, rfl⟩, ⟨-, rfl, rfl⟩ | ⟨-, huninit, rfl, rfl⟩⟩
  · simp [mem_insertCode, hs, Ne.symm hf]
  · simp [mem_insertCode, Raised.code]
  · exact hs
  · simpa [huninit] using hs

/-- R141: only a sink that can fail halts the block. -/
theorem exec_keeps_halted_sinkCanFail {i : Instr} {s t : State} (h : exec i s = .next t)
    (hs : s.initState = .halted → s.cfg.sinkCanFail = true) : t.initState = .halted → t.cfg.sinkCanFail = true := by
  rcases exec_next_cases h with ⟨f, -, rfl⟩ | ⟨p, q, ev, l, d, hcan, -, -, rfl⟩ |
    ⟨init, phase, ⟨res, o, w, l, m, d, -, -, rfl⟩, ⟨-, rfl, rfl⟩ | ⟨-, -, rfl, rfl⟩⟩
  · exact hs
  · exact fun _ => hcan
  · exact hs
  · simp

/-- R32, R232: the nibble phase is high in READY and unknown elsewhere. -/
theorem exec_keeps_nibblePhase {i : Instr} {s t : State} (h : exec i s = .next t)
    (hs : s.nibblePhase = if s.initState = .ready then some .high else none) :
    t.nibblePhase = if t.initState = .ready then some .high else none := by
  rcases exec_next_cases h with ⟨f, -, rfl⟩ | ⟨p, q, ev, l, d, -, -, -, rfl⟩ |
    ⟨init, phase, ⟨res, o, w, l, m, d, -, -, rfl⟩, ⟨-, rfl, rfl⟩ | ⟨-, -, rfl, rfl⟩⟩
  · exact hs
  · rfl
  · exact hs
  · rfl

/-- R151: a valid instance's trace holds only events it can emit. -/
theorem exec_keeps_trace_legal {i : Instr} {s t : State} (h : exec i s = .next t) (hvalid : configValid s.cfg = true)
    (hs : s.trace.all (legalEvent s.cfg) = true) : t.trace.all (legalEvent t.cfg) = true := by
  obtain ⟨ev, -, hlegal, htrace⟩ := exec_trace h
  obtain ⟨hcfg, -, -⟩ := exec_host_frame h
  rw [hcfg, htrace, List.all_append, hs, Bool.true_and, List.all_eq_true]
  exact hlegal hvalid

/-- R66: the observer's counter stays inside CGRAM while CGRAM is selected; a halted block's observer is unknown. -/
theorem exec_keeps_observerOk {i : Instr} {s t : State} (h : exec i s = .next t) (hs : observerOk s.observer) :
    observerOk t.observer := by
  rcases exec_next_cases h with ⟨f, -, rfl⟩ | ⟨p, q, ev, l, d, -, -, -, rfl⟩ |
    ⟨init, phase, ⟨res, o, w, l, m, d, -, hobserver, rfl⟩, -⟩
  · exact hs
  · exact fun hspace => nomatch hspace
  · exact hobserver hs

/-- Settles O44: each clause by its own lemma; the response an instruction adds meets the position a step advances. -/
theorem stepKeepsInvariant : Obligations.StepKeepsInvariant := by
  rintro s t ⟨hvalid, hrecord, hhalted, hsink, hphase, htrace, hlength, hobserver⟩ hstep
  obtain ⟨-, p, i, u, -, -, hexec, rfl⟩ := step_next_iff.1 hstep
  obtain ⟨hcfg, -, hk⟩ := exec_host_frame hexec
  obtain ⟨r, hr⟩ := exec_responses hexec
  have record := exec_keeps_faultRecordOk hexec hrecord
  have halted_iff := exec_keeps_halted_iff hexec hhalted
  have sink := exec_keeps_halted_sinkCanFail hexec hsink
  have phase := exec_keeps_nibblePhase hexec hphase
  have trace := exec_keeps_trace_legal hexec hvalid htrace
  have length_eq : (advance u).responses.length = (advance u).k := by simp [hr, hlength, hk]
  have observer := exec_keeps_observerOk hexec hobserver
  exact ⟨hcfg ▸ hvalid, record, halted_iff, sink, phase, trace, length_eq, observer⟩

end Sys2Proof.Machine
end

section
/-! SUPPORT. The other statements about the block's state and the host's position (10_state.md R20 to R28). -/

namespace Sys2Proof.Machine

/-- R230, R231: an instance is constructed in the state `fresh` gives. -/
theorem construct_eq_some_iff {cfg : Config} {s : State} :
    construct cfg = some s ↔ configValid cfg = true ∧ State.fresh cfg = s := by
  simp [construct]

/-- Settles O39: a command's one response is a fault and recorded, or `OK` and the record is unchanged. -/
theorem faultsAreSticky : Obligations.FaultsAreSticky := by
  refine ⟨fun cfg s hs => ?_, fun i s t h => ?_⟩
  · obtain ⟨-, rfl⟩ := construct_eq_some_iff.1 hs
    exact ⟨rfl, rfl⟩
  · rcases exec_fault_record h with ⟨f, hr, hfaults, hfirst⟩ | ⟨res, hr, hfaults, hfirst⟩
    · have mem_iff : ∀ c, c ∈ t.faults ↔ c ∈ s.faults ∨ c = f.code := by simp [hfaults, mem_insertCode, or_comm]
      refine ⟨fun c hc => (mem_iff c).2 (.inl hc), fun c hc => by simp [hfirst, hc], fun g r hg => ?_, by simp [hr]⟩
      obtain ⟨rfl, -⟩ : f = g ∧ none = r := by simpa [hr] using hg
      exact ⟨mem_iff, fun hnone => by simp [hfirst, hnone]⟩
    · exact ⟨fun _ hc => hfaults ▸ hc, fun _ hc => hfirst.trans hc, by simp [hr], fun _ _ => ⟨hfaults, hfirst⟩⟩

/-- Settles O46: the instruction adds the response and leaves the host's part alone; `advance` moves the position. -/
theorem stepAdvancesHostPositionByOne : Obligations.StepAdvancesHostPositionByOne := by
  intro s t hstep
  obtain ⟨-, p, i, u, -, -, hexec, rfl⟩ := step_next_iff.1 hstep
  obtain ⟨hcfg, hprogram, hk⟩ := exec_host_frame hexec
  exact ⟨by simp [hk], hprogram, hcfg, (exec_responses hexec :)⟩

/-- Settles O47: `exec_cases` gives the next state, the frame lemmas the rest. -/
theorem everyInstructionAnswersTheHost : Obligations.EveryInstructionAnswersTheHost := by
  intro i s
  obtain ⟨t, hexec, -⟩ := exec_cases i s
  obtain ⟨r, hr⟩ := exec_responses hexec
  exact ⟨t, r, hexec, hr, exec_host_frame hexec⟩

/-- Settles O48. -/
theorem traceOnlyGrows : Obligations.TraceOnlyGrows := by
  refine ⟨fun cfg s hs => ?_, fun i s t h => ?_⟩
  · obtain ⟨-, rfl⟩ := construct_eq_some_iff.1 hs
    rfl
  · obtain ⟨ev, -, -, htrace⟩ := exec_trace h
    exact ⟨ev, htrace⟩

/-- Settles O49: each way an instruction can end (`exec_sequencer`) decides the four clauses. -/
theorem sequencerStateTransitions : Obligations.SequencerStateTransitions := by
  refine ⟨fun cfg s hs => ?_, fun i s t r h hr => ?_⟩
  · obtain ⟨-, rfl⟩ := construct_eq_some_iff.1 hs
    rfl
  · rcases exec_sequencer h hr with ⟨hcode, ht⟩ | ⟨hcode, htag, hs, ht⟩ | ⟨hcode, hinit, ht⟩
    · simp [hcode, ht]
    · simp [hcode, htag, hs, ht]
    · exact ⟨fun hc => absurd hc hcode, fun htag hc => absurd ⟨htag, hc⟩ hinit, fun _ _ => ht, fun hs => ht.trans hs⟩

/-- R142 to R147: frames are transactions, on either path. -/
theorem frames_transactions (cfg : Config) (rs : Bit) (b : Word) :
    (∀ e ∈ logicalFrame cfg rs b, isTransaction e = true) ∧ (∀ e ∈ eightBitFrame cfg b, isTransaction e = true) := by
  cases ht : cfg.transport <;> cases hw : cfg.ifaceWidth <;>
    simp [logicalFrame, eightBitFrame, framePar8, framePar4, frameI2c, isTransaction, ht, hw]

theorem resolvedEvents_transactions (cfg : Config) (r : Except Raised BusInstr) :
    ∀ e ∈ resolvedEvents cfg r, isTransaction e = true := by
  cases r with
  | error f => simp [resolvedEvents]
  | ok i => exact (frames_transactions cfg 0#1 (enc i)).1

theorem statusEvents_transactions (cfg : Config) : ∀ e ∈ statusEvents cfg, isTransaction e = true := by
  unfold statusEvents
  split
  · simp [isTransaction]
  · simp

/-- R171: with the fallback off INIT's events are its four frames. -/
theorem initMoves_transactions {cfg : Config} (h : cfg.initFallback = false) (fs dc em : BusInstr) :
    ∀ e ∈ moveEvents (initMoves cfg fs dc em), isTransaction e = true := by
  intro e he
  simp only [initMoves, fallbackMoves, h, moveEvents, send8, sendL, List.flatMap_cons, List.flatMap_nil,
    List.mem_append, List.append_nil, List.nil_append, Bool.false_eq_true, if_false] at he
  rcases he with he | he | he | he
  · exact (frames_transactions cfg 0#1 _).2 e he
  · exact (frames_transactions cfg 0#1 _).1 e he
  · exact (frames_transactions cfg 0#1 _).1 e he
  · exact (frames_transactions cfg 0#1 _).1 e he

/-- R27: only INIT with the fallback on has delay requests among its events. -/
theorem commandEvents_transactions {cfg : Config} {i : Instr}
    (h : hostTag i ≠ some 0x0 ∨ cfg.initFallback = false) : ∀ e ∈ commandEvents cfg i, isTransaction e = true := by
  cases i with
  | init fs dc em => exact initMoves_transactions (h.resolve_left (by simp [hostTag])) fs dc em
  | readBfAc | status => exact statusEvents_transactions cfg
  | setcg | setdd | cursor => exact resolvedEvents_transactions cfg _
  | puts bytes =>
    intro e he
    obtain ⟨b, -, heb⟩ := List.mem_flatMap.1 he
    exact (frames_transactions cfg 1#1 b).1 e heb
  | clear | home | entryMode | displayControl | shift | functionSet | setCgramAddress | setDdramAddress | writeData
  | clearCmd | homeCmd | txi | txd => exact (frames_transactions cfg _ _).1
  | reservedA | reservedB | reservedC | reservedD | reservedE | reservedF => simp [commandEvents]

/-- Settles O52: what an instruction appends is the first of its own events, and none of those is a delay. -/
theorem delaysComeOnlyFromFallback : Obligations.DelaysComeOnlyFromFallback := by
  intro i s t h hi
  obtain ⟨ev, hprefix, -, htrace⟩ := exec_trace h
  have no_delay : ev.filter (fun e => !isTransaction e) = [] := by
    simpa using fun e he => commandEvents_transactions hi e (hprefix.subset he)
  rw [htrace, List.filter_append, no_delay, List.append_nil]

/-- Settles O45: the one direction of `step_next_iff`. -/
theorem stepRunsDecodedInstruction : Obligations.StepRunsDecodedInstruction := by
  intro s p i hvalid hfetch hdecode
  obtain ⟨t, hexec, -⟩ := exec_cases i s
  exact ⟨t, hexec, step_next_iff.2 ⟨hvalid, p, i, t, hfetch, hdecode, hexec, rfl⟩⟩

/-- The packet placed next is at the host's position; where the list is too short, copies of it fill the gap. -/
theorem placeNext_program_at (p : Packet) (s : State) : (placeNext p s).program[s.k]? = some p := by
  have position : (s.program.take s.k ++ List.replicate (s.k - s.program.length) p).length = s.k := by simp; omega
  simp only [placeNext]
  rw [List.getElem?_append_right position.le, position, Nat.sub_self, List.getElem?_cons_zero]

/-- Placing a packet leaves the host's earlier commands as they are. -/
theorem placeNext_program_before (p : Packet) (s : State) {j : Nat} (hk : j < s.k) (hj : j < s.program.length) :
    (placeNext p s).program[j]? = s.program[j]? := by
  have before : j < (s.program.take s.k).length := by simp [hk, hj]
  simp only [placeNext, List.append_assoc]
  rw [List.getElem?_append_left before, List.getElem?_take_of_lt hk]

/-- Settles O57: the placed packet is fetched, so O45 says what the step does. -/
theorem placedWordIsRunNext : Obligations.PlacedWordIsRunNext := by
  intro s nbits w p i hvalid hpacket hdecode
  have placed : s.withFetchWord nbits w = placeNext p s := by simp [State.withFetchWord, hpacket]
  rw [placed]
  obtain ⟨t, hexec, hstep⟩ := stepRunsDecodedInstruction (placeNext p s) p i hvalid (placeNext_program_at p s) hdecode
  obtain ⟨-, -, position⟩ := exec_host_frame hexec
  exact ⟨t, hexec, position ▸ hstep, fun _ hk hj => placeNext_program_before p s hk hj⟩

end Sys2Proof.Machine
end

section
/-! SUPPORT. The word a frame carries decodes to the instruction it encodes (R87, R88). -/

namespace Sys2Proof

theorem dec_enc_setCgram (a : BitVec 6) : dec (enc (.setCgram a)) = some (.setCgram a) := by
  have field : (enc (.setCgram a)).extractLsb' 0 6 = a := by
    ext i hi
    interval_cases i <;> simp [enc, zext8]
  have bit7 : (enc (.setCgram a)).getLsbD 7 = false := by simp [enc, zext8]
  have bit6 : (enc (.setCgram a)).getLsbD 6 = true := by simp [enc, zext8]
  simp only [dec, bit7, bit6, field, if_true, Bool.false_eq_true, if_false]

theorem dec_enc_setDdram (a : BitVec 7) : dec (enc (.setDdram a)) = some (.setDdram a) := by
  have field : (enc (.setDdram a)).extractLsb' 0 7 = a := by
    ext i hi
    interval_cases i <;> simp [enc, zext8]
  have bit7 : (enc (.setDdram a)).getLsbD 7 = true := by simp [enc, zext8]
  simp only [dec, bit7, field, if_true]

/-- R88: `dec` inverts `enc`. -/
@[simp] theorem dec_enc (i : BusInstr) : dec (enc i) = some i := by
  cases i with
  | clear | home => decide
  | entryMode id s => revert id s; decide
  | displayCtl d c b => revert d c b; decide
  | shift sc rl => revert sc rl; decide
  | functionSet dl n f => revert dl n f; decide
  | setCgram a => exact dec_enc_setCgram a
  | setDdram a => exact dec_enc_setDdram a

end Sys2Proof
end

section
/-! SUPPORT. The controller observer, one lemma a row of R66. -/

namespace Sys2Proof.Machine

theorem stepCgram_up_toNat (ac : BitVec 7) : (stepCgram ac 1#1).toNat = (ac.toNat + 1) % 64 := by
  simp only [stepCgram, if_true, BitVec.toNat_ofNat]
  omega

theorem stepCgram_down_toNat (ac : BitVec 7) : (stepCgram ac 0#1).toNat = (ac.toNat + 63) % 64 := by
  have down : ¬ (0#1 = 1#1) := by decide
  simp only [stepCgram, down, if_false, BitVec.toNat_ofNat]
  omega

/-- R66: inside the two display lines the counter steps up by one, without a wrap. -/
theorem stepDdram_up_inside {ac : BitVec 7} (h : ac.toNat ≤ 0x26 ∨ (0x40 ≤ ac.toNat ∧ ac.toNat ≤ 0x66)) :
    ∃ up, stepDdram ac 1#1 = some up ∧ up.toNat = ac.toNat + 1 :=
  ⟨ac + 1, by simp only [stepDdram, if_true, if_pos h], by bv_omega⟩

theorem stepDdram_down_inside {ac : BitVec 7}
    (h : (0x01 ≤ ac.toNat ∧ ac.toNat ≤ 0x27) ∨ (0x41 ≤ ac.toNat ∧ ac.toNat ≤ 0x67)) :
    ∃ down, stepDdram ac 0#1 = some down ∧ down.toNat + 1 = ac.toNat :=
  ⟨ac - 1, by simp [stepDdram, if_pos h], by bv_omega⟩

theorem stepDdram_up_outside {ac : BitVec 7} (h : 0x26 < ac.toNat ∧ ac.toNat < 0x40 ∨ 0x66 < ac.toNat) :
    stepDdram ac 1#1 = none := by
  have outside : ¬ (ac.toNat ≤ 0x26 ∨ (0x40 ≤ ac.toNat ∧ ac.toNat ≤ 0x66)) := by omega
  simp only [stepDdram, if_true, if_neg outside]

theorem stepDdram_down_outside {ac : BitVec 7}
    (h : ac.toNat = 0 ∨ (0x27 < ac.toNat ∧ ac.toNat < 0x41) ∨ 0x67 < ac.toNat) : stepDdram ac 0#1 = none := by
  have outside : ¬ ((0x01 ≤ ac.toNat ∧ ac.toNat ≤ 0x27) ∨ (0x41 ≤ ac.toNat ∧ ac.toNat ≤ 0x67)) := by omega
  simp [stepDdram, if_neg outside]

/-- R66: the step is unknown where the counter, the direction or the space is. -/
theorem stepAc_unknown {o : Observer} {up : Option Bit} (h : o.ac = none ∨ up = none ∨ o.space = none) :
    stepAc o up = none := by
  obtain ⟨ac, space, id⟩ := o
  rcases h with rfl | rfl | rfl
  · rfl
  · cases ac <;> rfl
  · cases ac <;> cases up <;> rfl

/-- R66: a frame to the instruction register updates the observer by the instruction it encodes. -/
@[simp] theorem observeFrame_enc (o : Observer) (i : BusInstr) : observeFrame o 0#1 (enc i) = observeInstr o i := by
  simp [observeFrame]

/-- R66: a data byte steps the counter in the entry-mode direction. -/
@[simp] theorem observeFrame_data (o : Observer) (b : Byte) :
    observeFrame o 1#1 b = ⟨stepAc o o.id, o.space, o.id⟩ := rfl

/-- R66: a display shift leaves the observer alone. -/
theorem observeInstr_shift_display (o : Observer) (rl : Bit) : observeInstr o (.shift 1#1 rl) = o := rfl

/-- R66: a cursor shift steps the counter to its side. -/
theorem observeInstr_shift_cursor (o : Observer) (rl : Bit) :
    observeInstr o (.shift 0#1 rl) = ⟨stepAc o (some rl), o.space, o.id⟩ := rfl

/-- R66: the CGRAM address set is the counter. -/
theorem observeInstr_setCgram (o : Observer) (a : BitVec 6) :
    ∃ x : BitVec 7, x.toNat = a.toNat ∧ observeInstr o (.setCgram a) = ⟨some x, some .cgram, o.id⟩ :=
  ⟨a.setWidth 7, BitVec.toNat_setWidth_of_le (by decide), rfl⟩

/-- Settles O56: one lemma a clause of the counter's step; the rows of R66 hold by `observeInstr`'s own equations. -/
theorem observerStepRanges : Obligations.ObserverStepRanges := by
  refine ⟨fun ac id => ⟨?_, stepDdram_up_inside, stepDdram_down_inside, stepDdram_up_outside, stepDdram_down_outside⟩,
    fun o up => stepAc_unknown, fun o => ⟨observeFrame_enc o, observeFrame_data o, rfl, rfl, fun _ _ => rfl,
      fun _ _ _ => rfl, fun _ _ _ => rfl, observeInstr_shift_display o, observeInstr_shift_cursor o,
      observeInstr_setCgram o, fun _ => rfl⟩⟩
  exact ⟨_, _, rfl, rfl, stepCgram_up_toNat ac, stepCgram_down_toNat ac⟩

end Sys2Proof.Machine
end

section
/-! SUPPORT. What the operations do where the sink takes every transaction (R141): the deterministic outcome of `Xmit`,
of a command's moves and of a transmission. -/

namespace Sys2Proof.Machine

/-- R141: a sink that takes `m + n` transactions takes `m` and then `n` more. -/
theorem answersOk_add (m n : Nat) (s : State) :
    answersOk (m + n) s = true ↔
      answersOk m s = true ∧ answersOk n { s with sinkAnswers := answersLeft m s } = true := by
  cases hfail : s.cfg.sinkCanFail with
  | false => simp [answersOk, hfail]
  | true =>
    simp only [answersOk, answersLeft, hfail, Bool.not_true, Bool.false_or, if_true, Bool.and_eq_true,
      decide_eq_true_eq, List.take_add, List.all_append, List.length_drop]
    constructor
    · rintro ⟨hlen, hm, hn⟩
      exact ⟨⟨by omega, hm⟩, by omega, hn⟩
    · rintro ⟨⟨hlen, hm⟩, hlen', hn⟩
      exact ⟨by omega, hm, hn⟩

theorem answersLeft_add (m n : Nat) (s : State) :
    answersLeft n { s with sinkAnswers := answersLeft m s } = answersLeft (m + n) s := by
  cases hfail : s.cfg.sinkCanFail <;> simp [answersLeft, hfail]

theorem answersLeft_zero (s : State) : answersLeft 0 s = s.sinkAnswers := by
  simp [answersLeft]

theorem askSink_of_answersOk {s : State} (h : answersOk 1 s = true) :
    askSink s = (true, { s with sinkAnswers := answersLeft 1 s }) := by
  cases hfail : s.cfg.sinkCanFail with
  | false => simp [askSink, answersLeft, hfail]
  | true =>
    cases hanswers : s.sinkAnswers with
    | nil => simp [answersOk, hfail, hanswers] at h
    | cons a rest =>
      obtain rfl : a = true := by simpa [answersOk, hfail, hanswers] using h
      simp [askSink, answersLeft, hfail, hanswers]

/-- R141: `Xmit` sends its whole list where the sink takes it. -/
theorem xmit_of_answersOk (base i : Nat) {ts : List Event} {s : State} (h : answersOk ts.length s = true) :
    xmit base i ts s =
      ({ s with trace := s.trace ++ ts, sinkAnswers := answersLeft ts.length s }, none) := by
  induction ts generalizing i s with
  | nil => simp [xmit, answersLeft_zero]
  | cons t ts ih =>
    rw [List.length_cons, Nat.add_comm] at h ⊢
    obtain ⟨first, rest⟩ := (answersOk_add 1 ts.length s).1 h
    have ask : askSink (emit t s) =
        (true, { s with trace := s.trace ++ [t], sinkAnswers := answersLeft 1 s }) := askSink_of_answersOk first
    have sent := ih (i + 1) (s := { s with trace := s.trace ++ [t], sinkAnswers := answersLeft 1 s }) rest
    simp only [xmit, ask, sent, ← answersLeft_add 1, List.append_assoc, List.singleton_append]
    rfl

/-- R141, R66, R32: a command's moves all go out where the sink takes their transactions. -/
theorem runMoves_of_answersOk (base : Nat) {ms : List Move} {s : State}
    (h : answersOk (moveTransactions ms) s = true) :
    runMoves base ms s =
      ({ s with
          trace := s.trace ++ moveEvents ms, observer := moveObserver s.observer ms
          ctlWidth := moveWidth s.ctlWidth ms, sinkAnswers := answersLeft (moveTransactions ms) s }, none) := by
  induction ms generalizing base s with
  | nil => simp [runMoves, moveEvents, moveObserver, moveWidth, moveTransactions, answersLeft_zero]
  | cons m ms ih =>
    cases m with
    | delay t =>
      have count : moveTransactions (.delay t :: ms) = moveTransactions ms := by simp [moveTransactions]
      rw [count] at h ⊢
      have events : moveEvents (.delay t :: ms) = [.delayReq t] ++ moveEvents ms := moveEvents_cons _ _
      rw [events, ← List.append_assoc]
      exact ih base (s := emit (.delayReq t) s) h
    | send rs b frame =>
      have count : moveTransactions (.send rs b frame :: ms) = frame.length + moveTransactions ms := by
        simp [moveTransactions]
      rw [count] at h ⊢
      obtain ⟨here, later⟩ := (answersOk_add _ _ s).1 h
      have sent := ih (base + frame.length)
        (s := delivered rs b { s with trace := s.trace ++ frame, sinkAnswers := answersLeft frame.length s }) later
      have events : moveEvents (.send rs b frame :: ms) = frame ++ moveEvents ms := by simp [moveEvents]
      rw [events, ← List.append_assoc, ← answersLeft_add]
      simp only [runMoves, xmit_of_answersOk base 0 here]
      exact sent

/-- R141, R28: a transmission whose transactions the sink takes returns `OK`. -/
theorem transmit_of_answersOk {ms : List Move} {s : State} (h : answersOk (moveTransactions ms) s = true) :
    transmit ms s = .next (respond ⟨.ok, none⟩
      { s with
        trace := s.trace ++ moveEvents ms, observer := moveObserver s.observer ms
        ctlWidth := moveWidth s.ctlWidth ms, sinkAnswers := answersLeft (moveTransactions ms) s }) := by
  rw [transmit, runMoves_of_answersOk 0 h]
  rfl

/-- R146: one logical frame the sink takes. -/
theorem transmit_sendL_of_answersOk {rs : Bit} {b : Word} {s : State}
    (h : answersOk (logicalFrame s.cfg rs b).length s = true) :
    transmit [sendL s.cfg rs b] s = .next (respond ⟨.ok, none⟩ (delivered rs b
      { s with
        trace := s.trace ++ logicalFrame s.cfg rs b
        sinkAnswers := answersLeft (logicalFrame s.cfg rs b).length s })) := by
  have events : moveEvents [sendL s.cfg rs b] = logicalFrame s.cfg rs b := by simp [moveEvents, sendL]
  have count : moveTransactions [sendL s.cfg rs b] = (logicalFrame s.cfg rs b).length := by
    simp [moveTransactions, sendL]
  rw [transmit_of_answersOk (count ▸ h), events, count]
  rfl

/-- R170: a ready block runs the command. -/
theorem whenReady_of_ready (tag : Nat) (body : State → Answer) {s : State} (h : s.initState = .ready) :
    whenReady tag body s = body s :=
  ((whenReady_cases tag body s).resolve_right fun notReady => notReady.1 h).2

end Sys2Proof.Machine
end

section
/-! SUPPORT. CLEAR twice (20_memory.md R67). -/

namespace Sys2Proof.Machine

/-- R172: in READY, CLEAR is the frame of its word. -/
theorem exec_clearCmd_of_ready {s : State} (hready : s.initState = .ready)
    (h : answersOk (logicalFrame s.cfg 0#1 (enc .clear)).length s = true) :
    exec .clearCmd s = .next (respond ⟨.ok, none⟩ (delivered 0#1 (enc .clear)
      { s with
        trace := s.trace ++ logicalFrame s.cfg 0#1 (enc .clear)
        sinkAnswers := answersLeft (logicalFrame s.cfg 0#1 (enc .clear)).length s })) := by
  rw [exec, execClearCmd, whenReady_of_ready 1 _ hready, transmit_sendL_of_answersOk h]

/-- Settles O54: each CLEAR is one frame, and the observer it leaves (R66) does not depend on the one before. -/
theorem clearTwiceIsClearOnce : Obligations.ClearTwiceIsClearOnce := by
  intro s hready htaken
  rw [two_mul] at htaken
  obtain ⟨first, second⟩ := (answersOk_add _ _ s).1 htaken
  have clear_once := exec_clearCmd_of_ready hready first
  exact ⟨_, _, clear_once, exec_clearCmd_of_ready hready second, by simp [observeInstr], by simp [observeInstr], rfl⟩

end Sys2Proof.Machine
end

section
/-! SUPPORT. The two encodings of a bus instruction (R87, R88): the number of its word, and what `dec` reads from a
byte. -/

namespace Sys2Proof

open Sys2Proof.Machine

theorem enc_clear_toNat : (enc .clear).toNat = 0x01 := rfl

theorem enc_home_toNat : (enc .home).toNat = 0x02 := rfl

theorem enc_entryMode_toNat : ∀ id s : Bit, (enc (.entryMode id s)).toNat = 0x04 + 2 * id.toNat + s.toNat := by decide

theorem enc_displayCtl_toNat :
    ∀ d c b : Bit, (enc (.displayCtl d c b)).toNat = 0x08 + 4 * d.toNat + 2 * c.toNat + b.toNat := by decide

theorem enc_shift_toNat : ∀ sc rl : Bit, (enc (.shift sc rl)).toNat = 0x10 + 8 * sc.toNat + 4 * rl.toNat := by decide

theorem enc_functionSet_toNat :
    ∀ dl n f : Bit, (enc (.functionSet dl n f)).toNat = 0x20 + 16 * dl.toNat + 8 * n.toNat + 4 * f.toNat := by decide

/-- R126: a class's bit over an address below it is their sum. -/
theorem toNat_or_zext8 {m k : Nat} (a : BitVec m) (hm : m ≤ 8) (hk : k < 8) (h : a.toNat < 2 ^ k) :
    (BitVec.ofNat 8 (2 ^ k) ||| zext8 a).toNat = 2 ^ k + a.toNat := by
  have fits : 2 ^ k % 2 ^ 8 = 2 ^ k := Nat.mod_eq_of_lt (Nat.pow_lt_pow_right (by decide) hk)
  have sum : 2 ^ k + a.toNat = 2 ^ k ||| a.toNat := by simpa using Nat.two_pow_add_eq_or_of_lt h 1
  rw [BitVec.toNat_or, zext8, BitVec.toNat_setWidth_of_le hm, BitVec.toNat_ofNat, fits]
  exact sum.symm

theorem enc_setCgram_toNat (a : BitVec 6) : (enc (.setCgram a)).toNat = 0x40 + a.toNat :=
  toNat_or_zext8 (k := 6) a (by decide) (by decide) a.isLt

theorem enc_setDdram_toNat (a : BitVec 7) : (enc (.setDdram a)).toNat = 0x80 + a.toNat :=
  toNat_or_zext8 (k := 7) a (by decide) (by decide) a.isLt

/-- Settles O1: one lemma a class; a word's flags are few enough to try out, an address is below its class's bit. -/
theorem encodedWordIsBasePlusFields : Obligations.EncodedWordIsBasePlusFields :=
  ⟨rfl, rfl, enc_entryMode_toNat, enc_displayCtl_toNat, enc_shift_toNat, enc_functionSet_toNat, enc_setCgram_toNat,
    enc_setDdram_toNat⟩

/-- Bit `k` is the highest set bit of `w` (R88). -/
def HighestBit (w : Word) (k : Nat) : Prop := w.getLsbD k = true ∧ ∀ j, k < j → w.getLsbD j = false

theorem highestBit_of_above {w : Word} {k : Nat} (isSet : w.getLsbD k = true)
    (above : ∀ j, k < j → j < 8 → w.getLsbD j = false) : HighestBit w k := by
  refine ⟨isSet, fun j hj => ?_⟩
  by_cases hj8 : j < 8
  · exact above j hj hj8
  · exact BitVec.getLsbD_of_ge w j (by omega)

/-- The highest set bit bounds the number on both sides. -/
theorem HighestBit.toNat_bounds {w : Word} {k : Nat} (h : HighestBit w k) :
    2 ^ k ≤ w.toNat ∧ w.toNat < 2 ^ (k + 1) :=
  ⟨Nat.ge_two_pow_of_testBit h.1, Nat.lt_pow_two_of_testBit _ fun j hj => h.2 j hj⟩

/-- The bus instruction of a class whose fields are the bits of `w` at their places (R81, R88); `dec_eq_some` ties it
to `dec`. -/
def BusClass.read (w : Word) : BusClass → BusInstr
  | .clear => .clear
  | .home => .home
  | .entryMode => .entryMode (w.extractLsb' 1 1) (w.extractLsb' 0 1)
  | .displayCtl => .displayCtl (w.extractLsb' 2 1) (w.extractLsb' 1 1) (w.extractLsb' 0 1)
  | .shift => .shift (w.extractLsb' 3 1) (w.extractLsb' 2 1)
  | .functionSet => .functionSet (w.extractLsb' 4 1) (w.extractLsb' 3 1) (w.extractLsb' 2 1)
  | .setCgram => .setCgram (w.extractLsb' 0 6)
  | .setDdram => .setDdram (w.extractLsb' 0 7)

/-- R88, read backwards: the class of a decoded byte is its highest set bit, and the fields are the bits below. -/
theorem dec_eq_some {w : Word} {i : BusInstr} (h : dec w = some i) :
    HighestBit w i.cls.bit ∧ i = i.cls.read w := by
  unfold dec at h
  split_ifs at h
  all_goals
    cases h
    refine ⟨highestBit_of_above ‹_› fun j hj hj8 => ?_, rfl⟩
    simp only [BusInstr.cls, BusClass.bit] at hj
    interval_cases j <;> simp_all only [Bool.not_eq_true]

/-- R88: no bit set, no class. -/
theorem dec_eq_none_iff (w : Word) : dec w = none ↔ w = 0x00#8 := by
  constructor
  · intro h
    unfold dec at h
    split_ifs at h
    refine BitVec.eq_of_getLsbD_eq fun j hj => ?_
    interval_cases j <;> simp_all
  · rintro rfl
    rfl

/-- The bits R81 leaves free in a class's words, 0 in every encoded one (D24). -/
def dontCareClear (w : Word) : BusClass → Prop
  | .home => w.getLsbD 0 = false
  | .shift => w.getLsbD 1 = false ∧ w.getLsbD 0 = false
  | .functionSet => w.getLsbD 1 = false ∧ w.getLsbD 0 = false
  | _ => True

theorem getLsbD_eq_false_iff (w : Word) (k : Nat) : w.getLsbD k = false ↔ w.toNat / 2 ^ k % 2 = 0 := by
  rw [BitVec.getLsbD, Nat.testBit_eq_decide_div_mod_eq, decide_eq_false_iff_not]
  omega

/-- R87 after R88: the base and the fields read from a byte add up to it where its free bits are 0. -/
theorem enc_read {w : Word} {c : BusClass} (top : HighestBit w c.bit) (free : dontCareClear w c) :
    enc (c.read w) = w := by
  obtain ⟨lower, upper⟩ := top.toNat_bounds
  refine BitVec.eq_of_toNat_eq ?_
  cases c
  all_goals
    simp only [BusClass.bit, dontCareClear, getLsbD_eq_false_iff] at lower upper free
    simp only [BusClass.read, enc_clear_toNat, enc_home_toNat, enc_entryMode_toNat, enc_displayCtl_toNat,
      enc_shift_toNat, enc_functionSet_toNat, enc_setCgram_toNat, enc_setDdram_toNat,
      BitVec.extractLsb'_toNat, Nat.shiftRight_eq_div_pow]
    omega

/-- Settles O2: a decoded byte is read class by class (`dec_eq_some`), and encoding what is read gives it back. -/
theorem byteDecodeReadsHighestBit : Obligations.ByteDecodeReadsHighestBit := by
  refine ⟨dec_eq_none_iff, fun w i h => ?_, dec_enc⟩
  obtain ⟨top, fields⟩ := dec_eq_some h
  refine ⟨top.1, top.2, ?read, fun free => ?enc⟩
  case read =>
    rw [fields]
    cases i.cls <;> simp [BusClass.read]
  case enc =>
    rw [fields]
    exact enc_read top free

end Sys2Proof
end

section
/-! SUPPORT. The forms of a bus word (R80, R83, R89), one lemma a form. -/

namespace Sys2Proof

open Sys2Proof.Machine

theorem busWord_db (rs rw : Bit) (v : Word) : BitVec.extractLsb' (n := 10) 0 8 (rs ++ rw ++ v) = v := by
  rw [← BitVec.setWidth_eq_extractLsb' (by decide)]
  exact BitVec.setWidth_append_eq_right

theorem busWord_rs (rs rw : Bit) (v : Word) : BitVec.getLsbD (w := 10) (rs ++ rw ++ v) 9 = rs.getLsbD 0 := by
  rw [BitVec.getLsbD_append, if_neg (by decide), BitVec.getLsbD_append, if_neg (by decide)]

theorem busWord_rw (rs rw : Bit) (v : Word) : BitVec.getLsbD (w := 10) (rs ++ rw ++ v) 8 = rw.getLsbD 0 := by
  rw [BitVec.getLsbD_append, if_neg (by decide), BitVec.getLsbD_append, if_pos (by decide)]

theorem decode_writeData (cfg : Config) (v : Word) : decode cfg (busWord 1#1 0#1 v) = .ok (.writeData v) := by
  simp only [decode, busWord, decodeBusWord, busWord_rs, busWord_rw, busWord_db]
  rfl

theorem decode_readData (cfg : Config) (v : Word) : decode cfg (busWord 1#1 1#1 v) = .error .readData := by
  simp only [decode, busWord, decodeBusWord, busWord_rs, busWord_rw]
  rfl

theorem decode_readBfAc (cfg : Config) (v : Word) :
    decode cfg (busWord 0#1 1#1 v) = .ok (.readBfAc (v.extractLsb' 7 1) (v.extractLsb' 0 7)) := by
  simp only [decode, busWord, decodeBusWord, busWord_rs, busWord_rw, busWord_db]
  rfl

theorem decode_toInstr (cfg : Config) {v : Word} {i : BusInstr} (h : dec v = some i) :
    decode cfg (busWord 0#1 0#1 v) = .ok i.toInstr := by
  simp only [decode, busWord, decodeBusWord, busWord_rs, busWord_rw, busWord_db, h]
  rfl

theorem decode_noInstruction (cfg : Config) {v : Word} (h : dec v = none) :
    decode cfg (busWord 0#1 0#1 v) = .error .noInstruction := by
  simp only [decode, busWord, decodeBusWord, busWord_rs, busWord_rw, busWord_db, h]
  rfl

/-- Settles O5: one lemma a form of the word. -/
theorem busWordFormsBySelectAndDirection : Obligations.BusWordFormsBySelectAndDirection := fun cfg v =>
  ⟨decode_writeData cfg v, decode_readData cfg v, decode_noInstruction cfg rfl, fun _ => decode_toInstr cfg⟩

/-- R80, R83: a bus word that decodes is a data write, a status read or a bus instruction. -/
theorem decodeBusWord_ok_cases {w : BitVec 10} {i : Instr} (h : decodeBusWord w = .ok i) :
    (∃ d, i = .writeData d) ∨ (∃ bf ac, i = .readBfAc bf ac) ∨ ∃ b : BusInstr, i = b.toInstr := by
  simp only [decodeBusWord] at h
  split_ifs at h
  · exact .inl ⟨_, by cases h; rfl⟩
  · exact .inr (.inl ⟨_, _, by cases h; rfl⟩)
  · split at h
    · cases h
    · exact .inr (.inr ⟨_, by cases h; rfl⟩)

theorem wellFormed_toInstr (cfg : Config) (b : BusInstr) : wellFormed cfg b.toInstr = true := by
  cases b <;> rfl

end Sys2Proof
end

section
/-! SUPPORT. What a host command's packet can decode to (R84 to R86): the command of its tag, with operands below their
widths. -/

namespace Sys2Proof

open Sys2Proof.Machine

@[simp] theorem noMore_eq_ok_iff {i j : Instr} {bs : List Byte} : noMore i bs = .ok j ↔ bs = [] ∧ i = j := by
  cases bs <;> simp [noMore]

theorem takeOperand_lt {bits v : Nat} {bs rest : List Byte} (h : takeOperand bits bs = .ok (v, rest)) :
    v < 2 ^ bits := by
  unfold takeOperand at h
  split at h
  · cases h
  · split_ifs at h with fits
    cases h
    exact fits

theorem decodeInit_ok {bs : List Byte} {i : Instr} (h : decodeInit bs = .ok i) : ∃ fs dc em, i = .init fs dc em := by
  unfold decodeInit at h
  split at h
  · cases h
  · split at h
    · cases h
    · split at h
      · cases h
      · exact ⟨_, _, _, (noMore_eq_ok_iff.mp h).2.symm⟩

theorem decodeTxi_ok {bs : List Byte} {i : Instr} (h : decodeTxi bs = .ok i) : ∃ b, i = .txi b := by
  unfold decodeTxi at h
  split at h
  · cases h
  · exact ⟨_, (noMore_eq_ok_iff.mp h).2.symm⟩

theorem decodeTxd_ok {bs : List Byte} {i : Instr} (h : decodeTxd bs = .ok i) : ∃ b, i = .txd b := by
  unfold decodeTxd at h
  split at h
  · exact ⟨_, (noMore_eq_ok_iff.mp h).2.symm⟩
  · cases h

theorem decodeSetcg_ok {cfg : Config} {bs : List Byte} {i : Instr} (h : decodeSetcg cfg bs = .ok i) :
    ∃ a, a < 2 ^ cfg.addrInBits ∧ i = .setcg a := by
  unfold decodeSetcg at h
  split at h
  · cases h
  · next a rest taken => exact ⟨a, takeOperand_lt taken, (noMore_eq_ok_iff.mp h).2.symm⟩

theorem decodeSetdd_ok {cfg : Config} {bs : List Byte} {i : Instr} (h : decodeSetdd cfg bs = .ok i) :
    ∃ a, a < 2 ^ cfg.addrInBits ∧ i = .setdd a := by
  unfold decodeSetdd at h
  split at h
  · cases h
  · next a rest taken => exact ⟨a, takeOperand_lt taken, (noMore_eq_ok_iff.mp h).2.symm⟩

theorem decodeCursor_ok {cfg : Config} {bs : List Byte} {i : Instr} (h : decodeCursor cfg bs = .ok i) :
    ∃ line col, line < 2 ^ cfg.lineInBits ∧ col < 2 ^ cfg.colBits ∧ i = .cursor line col := by
  unfold decodeCursor at h
  split at h
  · cases h
  · next line bs1 takenLine =>
    split at h
    · cases h
    · next col rest takenCol =>
      exact ⟨line, col, takeOperand_lt takenLine, takeOperand_lt takenCol, (noMore_eq_ok_iff.mp h).2.symm⟩

/-- R84, R86: a command packet gives the command of its tag, well formed. -/
theorem decodeCommand_ok {cfg : Config} {tag : BitVec 4} {bs : List Byte} {i : Instr}
    (h : decodeCommand cfg tag bs = .ok i) : hostTag i = some tag.toNat ∧ wellFormed cfg i = true := by
  unfold decodeCommand at h
  split at h
  · next t => obtain ⟨fs, dc, em, rfl⟩ := decodeInit_ok h; simp [hostTag, wellFormed, t]
  · next t => obtain ⟨-, rfl⟩ := noMore_eq_ok_iff.mp h; simp [hostTag, wellFormed, t]
  · next t => obtain ⟨-, rfl⟩ := noMore_eq_ok_iff.mp h; simp [hostTag, wellFormed, t]
  · next t => obtain ⟨a, fits, rfl⟩ := decodeSetcg_ok h; simp [hostTag, wellFormed, t, fits]
  · next t => obtain ⟨a, fits, rfl⟩ := decodeSetdd_ok h; simp [hostTag, wellFormed, t, fits]
  · next t => obtain ⟨line, col, inLine, inCol, rfl⟩ := decodeCursor_ok h; simp [hostTag, wellFormed, t, inLine, inCol]
  · next t => cases h; simp [hostTag, wellFormed, t]
  · next t => obtain ⟨-, rfl⟩ := noMore_eq_ok_iff.mp h; simp [hostTag, wellFormed, t]
  · next t => obtain ⟨b, rfl⟩ := decodeTxi_ok h; simp [hostTag, wellFormed, t]
  · next t => obtain ⟨b, rfl⟩ := decodeTxd_ok h; simp [hostTag, wellFormed, t]
  · next t => cases h; simp [hostTag, wellFormed, t]
  · next t => cases h; simp [hostTag, wellFormed, t]
  · next t => cases h; simp [hostTag, wellFormed, t]
  · next t => cases h; simp [hostTag, wellFormed, t]
  · next t => cases h; simp [hostTag, wellFormed, t]
  · have t : tag.toNat = 15 := by simp only [imp_false] at *; omega
    cases h
    simp [hostTag, wellFormed, t]

/-- Settles O7: a bus word's fields fit by their types, a host command's numbers by `decodeCommand_ok`. -/
theorem decodedInstructionIsWellFormed : Obligations.DecodedInstructionIsWellFormed := by
  intro cfg p i h
  cases p with
  | busWord w =>
    obtain ⟨d, rfl⟩ | ⟨bf, ac, rfl⟩ | ⟨b, rfl⟩ := decodeBusWord_ok_cases h
    · rfl
    · rfl
    · exact wellFormed_toInstr cfg b
  | command tag bs => exact (decodeCommand_ok h).2

/-- Every tag has a command that is well formed whatever the configuration. -/
theorem exists_wellFormed_of_hostTag (cfg : Config) : ∀ t < 16, ∃ i, hostTag i = some t ∧ wellFormed cfg i = true
  | 0x0, _ => ⟨.init .clear .clear .clear, rfl, rfl⟩
  | 0x1, _ => ⟨.clearCmd, rfl, rfl⟩
  | 0x2, _ => ⟨.homeCmd, rfl, rfl⟩
  | 0x3, _ => ⟨.setcg 0, rfl, by simp [wellFormed]⟩
  | 0x4, _ => ⟨.setdd 0, rfl, by simp [wellFormed]⟩
  | 0x5, _ => ⟨.cursor 0 0, rfl, by simp [wellFormed]⟩
  | 0x6, _ => ⟨.puts [], rfl, rfl⟩
  | 0x7, _ => ⟨.status, rfl, rfl⟩
  | 0x8, _ => ⟨.txi .clear, rfl, rfl⟩
  | 0x9, _ => ⟨.txd 0, rfl, rfl⟩
  | 0xA, _ => ⟨.reservedA, rfl, rfl⟩
  | 0xB, _ => ⟨.reservedB, rfl, rfl⟩
  | 0xC, _ => ⟨.reservedC, rfl, rfl⟩
  | 0xD, _ => ⟨.reservedD, rfl, rfl⟩
  | 0xE, _ => ⟨.reservedE, rfl, rfl⟩
  | 0xF, _ => ⟨.reservedF, rfl, rfl⟩
  | _ + 16, h => absurd h (by omega)

theorem encode_of_hostTag {cfg : Config} {i : Instr} {t : Nat} (h : hostTag i = some t) :
    ∃ ops, encode cfg i = .command (BitVec.ofNat 4 t) ops := by
  cases i <;> cases h <;> exact ⟨_, rfl⟩

end Sys2Proof
end

section
/-! SUPPORT. The operand bytes of a host command are read back (notes/assumptions/4.md), and with them every well-formed
instruction from its packet. -/

namespace Sys2Proof

open Sys2Proof.Machine

theorem takeNat_putNat (n : Nat) {v : Nat} (rest : List Byte) (h : v < 256 ^ n) :
    takeNat n (putNat n v ++ rest) = .ok (v, rest) := by
  induction n generalizing v with
  | zero =>
    obtain rfl : v = 0 := by simpa using h
    rfl
  | succ n ih =>
    have small : v / 256 < 256 ^ n := by rw [pow_succ] at h; omega
    have digits : v % 256 + 256 * (v / 256) = v := by omega
    simp [takeNat, putNat, ih small, digits]

theorem takeOperand_putNat {bits v : Nat} (rest : List Byte) (h : v < 2 ^ bits) :
    takeOperand bits (putNat (bytesFor bits) v ++ rest) = .ok (v, rest) := by
  have fits : v < 256 ^ bytesFor bits := by
    have room : bits ≤ 8 * bytesFor bits := by unfold bytesFor; omega
    calc v < 2 ^ bits := h
      _ ≤ 2 ^ (8 * bytesFor bits) := Nat.pow_le_pow_right (by decide) room
      _ = 256 ^ bytesFor bits := by rw [Nat.pow_mul]
  simp [takeOperand, takeNat_putNat _ rest fits, h]

theorem takeOperand_putNat_last {bits v : Nat} (h : v < 2 ^ bits) :
    takeOperand bits (putNat (bytesFor bits) v) = .ok (v, []) := by
  simpa using takeOperand_putNat [] h

/-- Clearing the highest set bit leaves a byte below it. -/
theorem HighestBit.xor_lt {w : Word} {k : Nat} (h : HighestBit w k) (hk : k < 8) :
    (w ^^^ (1#8 <<< k)).toNat < 2 ^ k := by
  refine Nat.lt_pow_two_of_testBit _ fun j hj => ?_
  change (w ^^^ (1#8 <<< k)).getLsbD j = false
  rw [← BitVec.twoPow_eq, BitVec.getLsbD_xor, BitVec.getLsbD_twoPow]
  obtain rfl | above := hj.eq_or_lt
  · simp [h.1, hk]
  · simp [h.2 j above, Nat.ne_of_lt above]

/-- The highest set bit put back. -/
theorem HighestBit.or_xor {w : Word} {k : Nat} (h : HighestBit w k) : (1#8 <<< k) ||| (w ^^^ (1#8 <<< k)) = w := by
  refine BitVec.eq_of_getLsbD_eq fun j hj => ?_
  rw [← BitVec.twoPow_eq, BitVec.getLsbD_or, BitVec.getLsbD_xor, BitVec.getLsbD_twoPow]
  by_cases same : k = j
  · subst same; simp [hj, h.1]
  · simp [same]

theorem busClass_bit_lt (c : BusClass) : c.bit < 8 := by cases c <;> decide

/-- The two bytes of an `Instr` operand are read back. -/
theorem busOfOperand_putBus (i : BusInstr) :
    busOfOperand (BitVec.ofNat 8 i.cls.bit) (enc i ^^^ (1#8 <<< i.cls.bit)) = .ok i := by
  have top : HighestBit (enc i) i.cls.bit := (dec_eq_some (dec_enc i)).1
  have small : i.cls.bit < 8 := busClass_bit_lt i.cls
  have index : (BitVec.ofNat 8 i.cls.bit).toNat = i.cls.bit := by
    rw [BitVec.toNat_ofNat]; omega
  simp only [busOfOperand, index, if_neg (Nat.not_le.mpr small), if_neg (Nat.not_le.mpr (top.xor_lt small)), top.or_xor,
    dec_enc, if_true]

theorem takeBus_putBus (i : BusInstr) (rest : List Byte) : takeBus (putBus i ++ rest) = .ok (i, rest) := by
  simp [putBus, takeBus, busOfOperand_putBus]

theorem takeBus_putBus_last (i : BusInstr) : takeBus (putBus i) = .ok (i, []) := takeBus_putBus i []

theorem encode_toInstr (cfg : Config) (b : BusInstr) : encode cfg b.toInstr = busWord 0 0 (enc b) := by
  cases b <;> rfl

/-- A bus instruction's row of the opcode table is read back from its word (R80, R87, R88). -/
theorem decode_encode_toInstr (cfg : Config) (b : BusInstr) : decode cfg (encode cfg b.toInstr) = .ok b.toInstr := by
  rw [encode_toInstr]
  exact decode_toInstr cfg (dec_enc b)

theorem decode_encode_readBfAc (cfg : Config) (bf : Bit) (ac : BitVec 7) :
    decode cfg (encode cfg (.readBfAc bf ac)) = .ok (.readBfAc bf ac) := by
  have flag : (bf ++ ac).extractLsb' 7 1 = bf := by
    rw [BitVec.extractLsb'_append_eq_of_le (by decide)]; exact BitVec.extractLsb'_eq_self
  have counter : (bf ++ ac).extractLsb' 0 7 = ac := by
    rw [← BitVec.setWidth_eq_extractLsb' (by decide)]; exact BitVec.setWidth_append_eq_right
  exact (decode_readBfAc cfg (bf ++ ac)).trans (by rw [flag, counter])

/-- The decoder reads every well-formed instruction back from its packet. -/
theorem decode_encode {cfg : Config} {i : Instr} (h : wellFormed cfg i = true) : decode cfg (encode cfg i) = .ok i := by
  cases i with
  | clear => exact decode_encode_toInstr cfg .clear
  | home => exact decode_encode_toInstr cfg .home
  | entryMode id s => exact decode_encode_toInstr cfg (.entryMode id s)
  | displayControl d c b => exact decode_encode_toInstr cfg (.displayCtl d c b)
  | shift sc rl => exact decode_encode_toInstr cfg (.shift sc rl)
  | functionSet dl n f => exact decode_encode_toInstr cfg (.functionSet dl n f)
  | setCgramAddress a => exact decode_encode_toInstr cfg (.setCgram a)
  | setDdramAddress a => exact decode_encode_toInstr cfg (.setDdram a)
  | writeData d => exact decode_writeData cfg d
  | readBfAc bf ac => exact decode_encode_readBfAc cfg bf ac
  | init fs dc em =>
    change decodeInit (putBus fs ++ putBus dc ++ putBus em) = _
    simp only [decodeInit, List.append_assoc, takeBus_putBus, takeBus_putBus_last, noMore]
  | setcg a =>
    have fits : a < 2 ^ cfg.addrInBits := by simpa [wellFormed] using h
    change decodeSetcg cfg (putNat (bytesFor cfg.addrInBits) a) = _
    simp only [decodeSetcg, takeOperand_putNat_last fits, noMore]
  | setdd a =>
    have fits : a < 2 ^ cfg.addrInBits := by simpa [wellFormed] using h
    change decodeSetdd cfg (putNat (bytesFor cfg.addrInBits) a) = _
    simp only [decodeSetdd, takeOperand_putNat_last fits, noMore]
  | cursor line col =>
    obtain ⟨lineFits, colFits⟩ : line < 2 ^ cfg.lineInBits ∧ col < 2 ^ cfg.colBits := by simpa [wellFormed] using h
    change decodeCursor cfg (putNat (bytesFor cfg.lineInBits) line ++ putNat (bytesFor cfg.colBits) col) = _
    simp only [decodeCursor, takeOperand_putNat _ lineFits, takeOperand_putNat_last colFits, noMore]
  | txi i =>
    change decodeTxi (putBus i) = _
    simp only [decodeTxi, takeBus_putBus_last, noMore]
  | clearCmd | homeCmd | puts bytes | status | txd b | reservedA | reservedB | reservedC | reservedD | reservedE
  | reservedF => rfl

/-- Settles O9: every tag has a well-formed command, and that command's packet, which bears the tag, is read back. -/
theorem hostTagDecidesCommand : Obligations.HostTagDecidesCommand := by
  refine ⟨fun cfg tag ops i h => (decodeCommand_ok h).1, fun cfg tag => ?_, fun cfg i t => encode_of_hostTag⟩
  obtain ⟨i, htag, hwf⟩ := exists_wellFormed_of_hostTag cfg tag.toNat tag.isLt
  obtain ⟨ops, packet⟩ := encode_of_hostTag (cfg := cfg) htag
  rw [BitVec.ofNat_toNat, BitVec.setWidth_eq] at packet
  exact ⟨ops, i, packet ▸ decode_encode hwf⟩

/-- Settles O8: eleven closed words, each read by running the decoder. -/
theorem specWordsDecodeAsWritten : Obligations.SpecWordsDecodeAsWritten := by
  unfold Obligations.SpecWordsDecodeAsWritten
  decide

end Sys2Proof
end

section
/-! SUPPORT. What the assembler gives (R92, R93). -/

namespace Sys2Proof.Machine

/-- Every command an assembled line gives is well formed (R92, R86). -/
def AssemblesWellFormed (cfg : Config) (r : Except AsmError (List Instr)) : Prop :=
  ∀ is, r = .ok is → ∀ i ∈ is, wellFormed cfg i = true

theorem AssemblesWellFormed.error {cfg : Config} (e : AsmError) : AssemblesWellFormed cfg (.error e) := by
  intro is his
  cases his

theorem AssemblesWellFormed.append {cfg : Config} {here rest : List Instr} (hhere : ∀ i ∈ here, wellFormed cfg i = true)
    (hrest : ∀ i ∈ rest, wellFormed cfg i = true) : AssemblesWellFormed cfg (.ok (here ++ rest)) := by
  intro is his i hi
  cases his
  exact (List.mem_append.mp hi).elim (hhere i) (hrest i)

theorem AssemblesWellFormed.bind {α : Type} {cfg : Config} {r : Except AsmError α}
    {f : α → Except AsmError (List Instr)} (h : ∀ a, r = .ok a → AssemblesWellFormed cfg (f a)) :
    AssemblesWellFormed cfg (r >>= f) := by
  cases r with
  | error e => exact .error e
  | ok a => exact h a rfl

theorem asmChecked_wellFormed (cfg : Config) (i : Instr) : AssemblesWellFormed cfg (asmChecked cfg i) := by
  intro is his j hj
  unfold asmChecked at his
  split_ifs at his with hwf
  cases his
  simpa [List.mem_singleton.mp hj] using hwf

theorem assembleLine_wellFormed (cfg : Config) (l : AsmLine) : AssemblesWellFormed cfg (assembleLine cfg l) := by
  cases l with
  | clear | home | setcg a | setdd a | cursor line col | status => exact asmChecked_wellFormed cfg _
  | putsText text | putsBytes ns | txi i | txd n | putc n =>
    exact .bind fun _ _ => asmChecked_wellFormed cfg _
  | entry id s | shift sc rl => exact .bind fun _ _ => .bind fun _ _ => asmChecked_wellFormed cfg _
  | init fs dc em | display d c b | func dl n f =>
    exact .bind fun _ _ => .bind fun _ _ => .bind fun _ _ => asmChecked_wellFormed cfg _
  | glyph k rows =>
    simp only [assembleLine]
    split_ifs
    · refine .bind fun bytes _ => .bind fun select hselect => .append (asmChecked_wellFormed cfg _ select hselect) ?_
      intro i hi
      obtain ⟨b, -, rfl⟩ := List.mem_map.mp hi
      rfl
    · exact .error _
    · exact .error _

theorem assemble_wellFormed (cfg : Config) (ls : List AsmLine) : AssemblesWellFormed cfg (assemble cfg ls) := by
  induction ls with
  | nil => exact .append (here := []) (rest := []) (by simp) (by simp)
  | cons l ls ih =>
    exact .bind fun here hhere => .bind fun rest hrest =>
      .append (assembleLine_wellFormed cfg l here hhere) (ih rest hrest)

/-- Settles O59: an assembled command is well formed, and a well-formed one is read back from its packet. -/
theorem assembledProgramDecodes : Obligations.AssembledProgramDecodes := fun cfg ls is h i hi =>
  have hwf : wellFormed cfg i = true := assemble_wellFormed cfg ls is h i hi
  ⟨hwf, decode_encode hwf⟩

@[simp] theorem asmBit_toNat (b : Bit) : asmBit b.toNat = .ok b := by
  simp [asmBit, b.isLt]

@[simp] theorem asmByte_toNat (b : Byte) : asmByte b.toNat = .ok b := by
  simp [asmByte, b.isLt]

theorem asmBytes_toNat (bs : List Byte) : asmBytes (bs.map BitVec.toNat) = .ok bs := by
  induction bs with
  | nil => rfl
  | cons b bs ih => simp [asmBytes, ih]

theorem asmChecked_of_wellFormed {cfg : Config} {i : Instr} (h : wellFormed cfg i = true) :
    asmChecked cfg i = .ok [i] := if_pos h

/-- R93: GLYPH selects the glyph's CGRAM address and sends its eight rows. -/
theorem assembleLine_glyph {cfg : Config} {k : Nat} {rows : List Byte} (hk : k < 8) (hrows : rows.length = 8)
    (hwidth : 8 * k < 2 ^ cfg.addrInBits) :
    assembleLine cfg (.glyph k (rows.map BitVec.toNat)) = .ok (.setcg (8 * k) :: rows.map .txd) := by
  have select : asmChecked cfg (.setcg (8 * k)) = .ok [.setcg (8 * k)] :=
    asmChecked_of_wellFormed (by simpa [wellFormed] using hwidth)
  simp only [assembleLine, if_pos hk, List.length_map, if_pos hrows, asmBytes_toNat, select]
  rfl

/-- Settles O58: the fields are written in range, so no line is refused; GLYPH is `assembleLine_glyph`. -/
theorem pseudoInstructionsExpand : Obligations.PseudoInstructionsExpand := by
  intro cfg
  refine ⟨?entry, ?display, ?shift, ?func, ?putc, ?glyph⟩
  case glyph => exact fun k r0 r1 r2 r3 r4 r5 r6 r7 hk =>
    assembleLine_glyph (rows := [r0, r1, r2, r3, r4, r5, r6, r7]) hk rfl
  all_goals
    intros
    simp only [assembleLine, asmBit_toNat, asmByte_toNat]
    rfl

end Sys2Proof.Machine
end

section
/-! SUPPORT. The instruction table (40_instruction_table.md R108, R109, R111): the raw byte on eight data lines, the
data word, and the status read of each read mode, whatever gives the sampled byte. -/

namespace Sys2Proof.Machine

/-- R142: the logical path on eight data lines is the raw byte. -/
theorem logicalFrame_parallel8 {cfg : Config} (rs : Bit) (b : Word) (htransport : cfg.transport = .parallel)
    (hwidth : cfg.ifaceWidth = .w8) : logicalFrame cfg rs b = [.pt rs 0#1 (.d8 b)] := by
  simp only [logicalFrame, htransport, hwidth, framePar8]

/-- R147: so is the 8-bit path, with RS=0. -/
theorem eightBitFrame_parallel8 {cfg : Config} (b : Word) (htransport : cfg.transport = .parallel)
    (hwidth : cfg.ifaceWidth = .w8) : eightBitFrame cfg b = [.pt 0#1 0#1 (.d8 b)] := by
  simp only [eightBitFrame, htransport, hwidth, framePar8]

/-- Settles O13: both paths at parallel width 8 are the raw byte's one transaction. -/
theorem parallel8CarriesRawWord : Obligations.Parallel8CarriesRawWord := fun _ rs b htransport hwidth =>
  ⟨logicalFrame_parallel8 rs b htransport hwidth, eightBitFrame_parallel8 b htransport hwidth⟩

theorem decodeStatus_bf_toNat (v : Byte) : (decodeStatus v).bf.toNat = v.toNat / 128 := by
  have top : v.toNat / 128 < 2 := by omega
  simp [decodeStatus, Nat.shiftRight_eq_div_pow, Nat.mod_eq_of_lt top]

theorem decodeStatus_ac_toNat (v : Byte) : (decodeStatus v).ac.toNat = v.toNat % 128 := by
  simp [decodeStatus]

/-- R109: a flag over a counter is the sampled byte of that result. -/
@[simp] theorem decodeStatus_append (bf : Bit) (ac : BitVec 7) : decodeStatus (bf ++ ac) = ⟨bf, ac⟩ := by
  have flag : (bf ++ ac).extractLsb' 7 1 = bf := by
    rw [BitVec.extractLsb'_append_eq_of_le (by decide)]; exact BitVec.extractLsb'_eq_self
  have counter : (bf ++ ac).extractLsb' 0 7 = ac := by
    rw [← BitVec.setWidth_eq_extractLsb' (by decide)]; exact BitVec.setWidth_append_eq_right
  exact congrArg₂ ReadResult.mk flag counter

/-- Settles O4: the two fields as numbers, and the decoder's read form (R83), whose fields are `decodeStatus`'s own. -/
theorem sampledByteSplitsIntoFlagAndCounter : Obligations.SampledByteSplitsIntoFlagAndCounter := fun cfg v =>
  ⟨decodeStatus_bf_toNat v, decodeStatus_ac_toNat v, decode_readBfAc cfg v⟩

/-- R66, R32: a data frame steps the observer's counter and leaves the controller's width. -/
theorem delivered_data (d : Byte) (s : State) :
    delivered 1#1 d s =
      { s with observer := ⟨stepAc s.observer s.observer.id, s.observer.space, s.observer.id⟩ } := rfl

/-- Settles O21: WRITE_DATA is one logical frame (R146), which the controller takes as data. -/
theorem dataWordCompletes : Obligations.DataWordCompletes := by
  intro s d htaken
  rw [exec, execWriteData, transmitData, transmit_sendL_of_answersOk htaken, delivered_data]
  rfl

/-- R152: a read cycle the sink takes is one event, and then the sampled byte is the result. -/
theorem readCycle_of_answersOk {sample : State → Byte × State} {s t : State} {v : Byte} (h : answersOk 1 s = true)
    (hsample : sample { s with trace := s.trace ++ [.readCycle 0#1], sinkAnswers := answersLeft 1 s } = (v, t)) :
    readCycle sample s = complete (some (decodeStatus v)) t := by
  have sent := xmit_of_answersOk 0 0 (ts := [.readCycle 0#1]) h
  rw [List.length_singleton] at sent
  simp only [readCycle, sent, hsample]

section
variable (sample : State → Byte × State) {s : State}

theorem statusRead_unsupported (hmode : s.cfg.readMode = .unsupported) :
    statusRead sample s = .next (raised .readUnsupported s) := by
  simp only [statusRead, hmode, raise]

theorem statusRead_stubZero (hmode : s.cfg.readMode = .stubZero) :
    statusRead sample s = .next (respond ⟨.ok, some ⟨0#1, 0#7⟩⟩ s) := by
  simp only [statusRead, hmode, complete]

theorem statusRead_sampled_i2c (hmode : s.cfg.readMode = .sampled) (htransport : s.cfg.transport = .i2c) :
    statusRead sample s = .next (raised .readUnsupported s) := by
  simp only [statusRead, hmode, htransport, raise]

theorem statusRead_sampled_parallel (hmode : s.cfg.readMode = .sampled) (htransport : s.cfg.transport = .parallel) :
    statusRead sample s = readCycle sample s := by
  simp only [statusRead, hmode, htransport]

end

/-- R83, R109: in SAMPLED mode on the parallel transport the word's own byte is the sample. -/
theorem execReadBfAc_sampled_parallel (bf : Bit) (ac : BitVec 7) {s : State} (hmode : s.cfg.readMode = .sampled)
    (htransport : s.cfg.transport = .parallel) (htaken : answersOk 1 s = true) :
    execReadBfAc bf ac s = .next (respond ⟨.ok, some ⟨bf, ac⟩⟩
      { s with trace := s.trace ++ [.readCycle 0#1], sinkAnswers := answersLeft 1 s }) := by
  rw [execReadBfAc, statusRead_sampled_parallel _ hmode htransport, readCycle_of_answersOk htaken rfl,
    decodeStatus_append, complete]

/-- Settles O22: the status read of each mode, with the word's own byte as the sample. -/
theorem readWordCompletes : Obligations.ReadWordCompletes := fun _ bf ac =>
  ⟨execReadBfAc_sampled_parallel bf ac, statusRead_unsupported _, statusRead_sampled_i2c _, statusRead_stubZero _⟩

end Sys2Proof.Machine
end

section
/-! SUPPORT. The address resolver (41_address_resolver.md R120 to R124): when an address is accepted, what the cursor's
line adds to it, and the word of a resolved address under its field's mask. -/

namespace Sys2Proof.Machine

/-- R120, R121: under MASK, or within its bound, an address is not refused. -/
theorem not_reject_above {policy : AddrPolicy} {a bound : Nat} (h : policy = .mask ∨ a ≤ bound) :
    ¬ (policy = .reject ∧ bound < a) := by
  rintro ⟨rfl, above⟩
  rcases h with masks | within
  · cases masks
  · exact Nat.not_lt.mpr within above

theorem resolveCgram_error {cfg : Config} {a : Nat} (hpolicy : cfg.addrPolicy = .reject) (above : 63 < a) :
    resolveCgram cfg a = .error (.invalidAddress a) := if_pos ⟨hpolicy, above⟩

theorem resolveCgram_ok {cfg : Config} {a : Nat} (h : cfg.addrPolicy = .mask ∨ a ≤ 63) :
    resolveCgram cfg a = .ok (.setCgram (BitVec.ofNat 6 (a % 64))) := if_neg (not_reject_above h)

theorem resolveDdram_error {cfg : Config} {a : Nat} (hpolicy : cfg.addrPolicy = .reject) (above : 127 < a) :
    resolveDdram cfg a = .error (.invalidAddress a) := if_pos ⟨hpolicy, above⟩

theorem resolveDdram_ok {cfg : Config} {a : Nat} (h : cfg.addrPolicy = .mask ∨ a ≤ 127) :
    resolveDdram cfg a = .ok (.setDdram (BitVec.ofNat 7 (a % 128))) := if_neg (not_reject_above h)

/-- Settles O10: the two branches of the resolver; the address taken modulo 64 fits its field. -/
theorem cgramAddressResolves : Obligations.CgramAddressResolves := fun _ a =>
  ⟨resolveCgram_error, fun accepted => ⟨BitVec.ofNat 6 (a % 64), by simp, resolveCgram_ok accepted⟩⟩

/-- Settles O11: the two branches of the resolver; the address taken modulo 128 fits its field. -/
theorem ddramAddressResolves : Obligations.DdramAddressResolves := fun _ a =>
  ⟨resolveDdram_error, fun accepted => ⟨BitVec.ofNat 7 (a % 128), by simp, resolveDdram_ok accepted⟩⟩

/-- R122: the line check comes first. -/
theorem resolveCursor_error_of_line {cfg : Config} {line : Nat} (col : Nat) (h : cfg.lineCount ≤ line) :
    resolveCursor cfg line col = .error (.invalidLineIndex line) := if_pos h

/-- R122: a line that has an offset is resolved as column plus offset. -/
theorem resolveCursor_of_offset {cfg : Config} {line off : Nat} (col : Nat) (hline : line < cfg.lineCount)
    (hoff : cfg.lineOffsets[line]? = some off) :
    resolveCursor cfg line col = resolveDdram cfg (col + off) := by
  simp only [resolveCursor, Nat.not_le.mpr hline, if_false, hoff]

/-- R6: a valid configuration has a DDRAM offset for every line below its count. -/
theorem lineOffset_of_valid {cfg : Config} {line : Nat} (hvalid : configValid cfg = true)
    (hline : line < cfg.lineCount) : ∃ off, cfg.lineOffsets[line]? = some off ∧ off ≤ 127 := by
  obtain ⟨clauses, -⟩ := (configValid_iff cfg).1 hvalid
  obtain ⟨-, hlength, bounded, -⟩ := (clausesOfR6_iff cfg).1 clauses
  have inside : line < cfg.lineOffsets.length := hlength ▸ hline
  exact ⟨_, List.getElem?_eq_getElem inside, bounded _ (List.getElem_mem inside)⟩

/-- Settles O12: the line's offset exists by R6, and O11 resolves a sum of at most 127 to itself (R123). -/
theorem cursorAddressResolves : Obligations.CursorAddressResolves := by
  intro cfg line col hvalid
  refine ⟨resolveCursor_error_of_line col, fun hline => ?_⟩
  obtain ⟨off, hoff, bound⟩ := lineOffset_of_valid hvalid hline
  have delegates := resolveCursor_of_offset col hline hoff
  refine ⟨off, hoff, bound, delegates, fun hsum => ?_⟩
  rw [Nat.add_comm] at hsum
  obtain ⟨x, value, resolves⟩ := (ddramAddressResolves cfg (col + off)).2 (.inr hsum)
  refine ⟨x, ?_, delegates.trans resolves⟩
  rw [value, Nat.mod_eq_of_lt (Nat.lt_succ_of_le hsum), Nat.add_comm]

/-- R124: the field's bits are all an address word keeps under the field's mask. -/
theorem enc_setCgram_masked (a : BitVec 6) : (enc (.setCgram a) &&& 0x3F#8).toNat = a.toNat := by
  rw [BitVec.toNat_and, enc_setCgram_toNat]
  calc (0x40 + a.toNat) &&& (2 ^ 6 - 1)
    _ = (0x40 + a.toNat) % 2 ^ 6 := Nat.and_two_pow_sub_one_eq_mod _ 6
    _ = a.toNat := by omega

theorem enc_setDdram_masked (a : BitVec 7) : (enc (.setDdram a) &&& 0x7F#8).toNat = a.toNat := by
  rw [BitVec.toNat_and, enc_setDdram_toNat]
  calc (0x80 + a.toNat) &&& (2 ^ 7 - 1)
    _ = (0x80 + a.toNat) % 2 ^ 7 := Nat.and_two_pow_sub_one_eq_mod _ 7
    _ = a.toNat := by omega

/-- Settles O3: an address in range is accepted under either policy (O10, O11), and its word's field is the address. -/
theorem resolvedWordMaskedIsAddress : Obligations.ResolvedWordMaskedIsAddress := by
  refine fun cfg v => ⟨fun hv => ?cgram, fun hv => ?ddram⟩
  case cgram =>
    obtain ⟨x, value, resolves⟩ := (cgramAddressResolves cfg v).2 (.inr (Nat.le_of_lt_succ hv))
    exact ⟨_, resolves, by rw [enc_setCgram_masked, value, Nat.mod_eq_of_lt hv]⟩
  case ddram =>
    obtain ⟨x, value, resolves⟩ := (ddramAddressResolves cfg v).2 (.inr (Nat.le_of_lt_succ hv))
    exact ⟨_, resolves, by rw [enc_setDdram_masked, value, Nat.mod_eq_of_lt hv]⟩

end Sys2Proof.Machine
end

section
/-! SUPPORT. What `Xmit` does at the first refused transaction (42_transport.md R141), and what an instruction's status
tells of its transport. -/

namespace Sys2Proof.Machine

/-- R141: a sink that can fail gives its next answer. -/
theorem askSink_of_cons {s : State} {a : Bool} {rest : List Bool} (hcan : s.cfg.sinkCanFail = true)
    (hanswers : s.sinkAnswers = a :: rest) : askSink s = (a, { s with sinkAnswers := rest }) := by
  simp only [askSink, hcan, if_true, hanswers]

/-- R141: where the answer to transaction `j` is the first refusal, it is the last transaction sent and halts the
block. -/
theorem xmit_of_refusal (base i : Nat) {j : Nat} {ts : List Event} {s : State} {rest : List Bool}
    (hcan : s.cfg.sinkCanFail = true) (hj : j < ts.length)
    (hanswers : s.sinkAnswers = List.replicate j true ++ false :: rest) :
    xmit base i ts s =
      (halt { s with trace := s.trace ++ ts.take (j + 1), sinkAnswers := rest },
        some (.transportFailure (i + j) (base + (i + j)))) := by
  induction ts generalizing i j s with
  | nil => exact absurd hj (Nat.not_lt_zero j)
  | cons t ts ih =>
    cases j with
    | zero =>
      have refuses : askSink (emit t s) = (false, { emit t s with sinkAnswers := rest }) :=
        askSink_of_cons hcan hanswers
      simp only [xmit, refuses]
      rfl
    | succ j =>
      have takes : askSink (emit t s) =
          (true, { s with trace := s.trace ++ [t], sinkAnswers := List.replicate j true ++ false :: rest }) :=
        askSink_of_cons hcan hanswers
      have later := ih (i + 1)
        (s := { s with trace := s.trace ++ [t], sinkAnswers := List.replicate j true ++ false :: rest }) hcan
        (Nat.lt_of_succ_lt_succ hj) rfl
      have index : i + 1 + j = i + (j + 1) := by omega
      simp only [xmit, takes, later, index, List.append_assoc, List.singleton_append, List.take_succ_cons]

/-- Settles O19: the sink takes the whole list, or the first refusal ends it. -/
theorem xmitStopsAtFirstRefusal : Obligations.XmitStopsAtFirstRefusal := by
  refine ⟨fun base ts s htaken => xmit_of_answersOk base 0 htaken, fun base j ts s rest hcan hj hanswers => ?_⟩
  rw [xmit_of_refusal base 0 hcan hj hanswers, Nat.zero_add]
  rfl

/-- R146: a bus instruction's row of the opcode table is its transmission. -/
theorem exec_toInstr (i : BusInstr) (s : State) : exec i.toInstr s = transmit [sendL s.cfg 0#1 (enc i)] s := by
  cases i <;> rfl

/-- R32: a frame to the instruction register updates the controller's width by the instruction it encodes. -/
@[simp] theorem widthAfter_enc (w : Option IfaceWidth) (i : BusInstr) :
    widthAfter w 0#1 (enc i) = widthAfterInstr w i := by
  simp [widthAfter]

/-- R66, R32: what the frame of an encoded instruction does to the controller. -/
theorem delivered_enc (i : BusInstr) (s : State) :
    delivered 0#1 (enc i) s =
      { s with observer := observeInstr s.observer i, ctlWidth := widthAfterInstr s.ctlWidth i } := by
  rw [delivered, observeFrame_enc, widthAfter_enc]

/-- Settles O20: an instruction word is one logical frame (R146); only FUNCTION_SET among the classes sets the width. -/
theorem instructionWordsComplete : Obligations.InstructionWordsComplete := by
  intro s i htaken
  rw [exec_toInstr, transmit_sendL_of_answersOk htaken, delivered_enc]
  cases i <;> rfl

/-- Settles O53: a validation fault is no transport failure, a transport failure needs a sink that can fail, and a
completed instruction leaves the record alone and the sequencer where it was or in READY. -/
theorem reliableSinkNeverHalts : Obligations.ReliableSinkNeverHalts := by
  intro i s t hreliable hexec
  rcases exec_next_cases hexec with ⟨f, hf, rfl⟩ | ⟨p, q, ev, l, d, hcan, -, -, -⟩ |
    ⟨init, phase, ⟨res, o, w, l, m, d, -, -, rfl⟩, ⟨-, rfl, rfl⟩ | ⟨-, -, rfl, rfl⟩⟩
  · exact ⟨id, fun hmem => ((mem_insertCode _ _ _).1 hmem).resolve_left (Ne.symm hf)⟩
  · exact absurd hcan (by simp [hreliable])
  · exact ⟨id, id⟩
  · exact ⟨fun halted => (nomatch halted), id⟩

/-- Settles O60: of the ways an instruction can end, only completion returns `OK`, and it appends every event. -/
theorem okMeansEveryEventWasEmitted : Obligations.OkMeansEveryEventWasEmitted := by
  intro i s t r hexec hok
  rcases exec_next_cases hexec with ⟨f, -, rfl⟩ | ⟨p, q, ev, l, d, -, -, -, rfl⟩ |
    ⟨init, phase, ⟨res, o, w, l, m, d, -, -, rfl⟩, -⟩
  · simp at hok
  · simp at hok
  · rfl

end Sys2Proof.Machine
end

section
/-! SUPPORT. The transport multiplexer's frames (42_transport.md R140 to R147): the bits of an I2C byte, the two halves
of a byte, and the sink call of each event. -/

namespace Sys2Proof.Machine

/-- R6: an I2C instance has a backlight bit. -/
theorem backlight_of_valid {cfg : Config} (hvalid : configValid cfg = true) (htransport : cfg.transport = .i2c) :
    cfg.backlight = some (blBit cfg) := by
  obtain ⟨clauses, -⟩ := (configValid_iff cfg).1 hvalid
  obtain ⟨-, -, -, i2cReady, -⟩ := (clausesOfR6_iff cfg).1 clauses
  obtain ⟨bl, hbl⟩ := Option.ne_none_iff_exists'.1 (i2cReady htransport).2
  simp only [blBit, hbl]

/-- R144: a byte's bit is the signal whose position it is. -/
theorem i2cPack_getLsbD (cfg : Config) (rs en : Bit) (n : Nibble) {q : Nat} (hq : q < 8) :
    (i2cPack cfg rs en n).getLsbD q =
      (decide (q = cfg.i2cMap.rs) && rs.getLsbD 0 || decide (q = cfg.i2cMap.en) && en.getLsbD 0
        || decide (q = cfg.i2cMap.bl) && (blBit cfg).getLsbD 0
        || decide (q = cfg.i2cMap.d0) && n.getLsbD 0 || decide (q = cfg.i2cMap.d1) && n.getLsbD 1
        || decide (q = cfg.i2cMap.d2) && n.getLsbD 2 || decide (q = cfg.i2cMap.d3) && n.getLsbD 3) := by
  simp [i2cPack, signalAt_getLsbD _ _ _ hq]

/-- R144, R145: in a valid map no two signals stand at one position, so each signal of a byte is read back at its
own. -/
theorem i2cPack_signals {cfg : Config} (hvalid : configValid cfg = true) (htransport : cfg.transport = .i2c)
    (rs en : Bit) (n : Nibble) :
    ((i2cPack cfg rs en n).getLsbD cfg.i2cMap.rs = rs.getLsbD 0 ∧ (i2cPack cfg rs en n).getLsbD cfg.i2cMap.rw = false
        ∧ cfg.backlight = some (BitVec.ofBool ((i2cPack cfg rs en n).getLsbD cfg.i2cMap.bl)))
      ∧ (i2cPack cfg rs en n).getLsbD cfg.i2cMap.en = en.getLsbD 0
      ∧ dataNibbleIs cfg.i2cMap (i2cPack cfg rs en n) n := by
  obtain ⟨bound, distinct⟩ := positions_of_valid hvalid
  have distinct_symm := List.nodup_reverse.2 distinct
  simp only [mapPositions, List.mem_cons, List.not_mem_nil, or_false, forall_eq_or_imp, forall_eq] at bound
  simp only [mapPositions, List.reverse_cons, List.reverse_nil, List.nil_append, List.cons_append, List.nodup_cons,
    List.mem_cons, List.not_mem_nil, or_false, not_or] at distinct distinct_symm
  obtain ⟨rw_at, bl_at⟩ := i2cPack_rw_bl hvalid rs en n
  have bl_given : cfg.backlight = some (BitVec.ofBool ((i2cPack cfg rs en n).getLsbD cfg.i2cMap.bl)) := by
    rw [bl_at, ← BitVec.setWidth_one, BitVec.setWidth_eq, backlight_of_valid hvalid htransport]
  refine ⟨⟨?_, rw_at, bl_given⟩, ?_, ?_⟩
  all_goals
    simp only [dataNibbleIs, i2cPack_getLsbD, bound]
    simp [distinct, distinct_symm]

/-- R145: whatever the width, an I2C instance's logical frame is its I2C frame. -/
theorem logicalFrame_i2c {cfg : Config} (rs : Bit) (b : Word) (htransport : cfg.transport = .i2c) :
    logicalFrame cfg rs b = frameI2c cfg rs b := by
  simp only [logicalFrame, htransport]

/-- R147: and so is the frame of its 8-bit path, with RS=0. -/
theorem eightBitFrame_i2c {cfg : Config} (b : Word) (htransport : cfg.transport = .i2c) :
    eightBitFrame cfg b = frameI2c cfg 0#1 b := by
  simp only [eightBitFrame, htransport]

/-- R143: the logical path on four data lines. -/
theorem logicalFrame_parallel4 {cfg : Config} (rs : Bit) (b : Word) (htransport : cfg.transport = .parallel)
    (hwidth : cfg.ifaceWidth = .w4) :
    logicalFrame cfg rs b = [.pt rs 0#1 (.d4 (highNibble b)), .pt rs 0#1 (.d4 (lowNibble b))] := by
  simp only [logicalFrame, htransport, hwidth, framePar4]

/-- R147: the 8-bit path on four data lines. -/
theorem eightBitFrame_parallel4 {cfg : Config} (b : Word) (htransport : cfg.transport = .parallel)
    (hwidth : cfg.ifaceWidth = .w4) : eightBitFrame cfg b = [.pt 0#1 0#1 (.d4 (highNibble b))] := by
  simp only [eightBitFrame, htransport, hwidth]

theorem highNibble_toNat (b : Byte) : (highNibble b).toNat = b.toNat / 16 := by
  have top : b.toNat / 16 < 16 := by omega
  simp [highNibble, Nat.shiftRight_eq_div_pow, Nat.mod_eq_of_lt top]

theorem lowNibble_toNat (b : Byte) : (lowNibble b).toNat = b.toNat % 16 := by
  simp [lowNibble]

/-- R150: the two halves of a byte give it back. -/
theorem highNibble_append_lowNibble (b : Byte) : highNibble b ++ lowNibble b = b :=
  BitVec.extractLsb'_append_extractLsb'

/-- Settles O15: the four bytes of R145, each read signal by signal at its position in the map. -/
theorem i2cFrameIsFourTaggedNibbleBytes : Obligations.I2cFrameIsFourTaggedNibbleBytes := by
  intro cfg rs b hvalid htransport
  have signals := i2cPack_signals hvalid htransport rs
  obtain ⟨tags1, en1, data1⟩ := signals 1#1 (highNibble b)
  obtain ⟨tags2, en2, data2⟩ := signals 0#1 (highNibble b)
  obtain ⟨tags3, en3, data3⟩ := signals 1#1 (lowNibble b)
  obtain ⟨tags4, en4, data4⟩ := signals 0#1 (lowNibble b)
  refine ⟨_, _, _, _, logicalFrame_i2c rs b htransport, ?_, en1, en2, en3, en4, data1, data2, data3, data4⟩
  simp only [List.forall_mem_cons, List.not_mem_nil, false_implies, implies_true, and_true]
  exact ⟨tags1, tags2, tags3, tags4⟩

/-- Settles O14. -/
theorem parallel4SendsHighNibbleFirst : Obligations.Parallel4SendsHighNibbleFirst := fun _ rs b htransport hwidth =>
  ⟨_, _, logicalFrame_parallel4 rs b htransport hwidth, highNibble_toNat b, lowNibble_toNat b,
    highNibble_append_lowNibble b⟩

/-- Settles O16: with the map and the backlight put in, only the three flags and the nibble are left to try out. -/
theorem defaultMapByteValue : Obligations.DefaultMapByteValue := by
  intro cfg bl rs en n hmap hbl
  simp only [i2cPack, blBit, hmap, hbl]
  clear hmap hbl
  revert bl rs en n
  decide

/-- Settles O17: one lemma a configuration. -/
theorem eightBitPathFrames : Obligations.EightBitPathFrames := fun _ b =>
  ⟨eightBitFrame_parallel8 b, fun htransport hwidth => ⟨highNibble b, highNibble_toNat b,
    eightBitFrame_parallel4 b htransport hwidth⟩, fun htransport =>
      (eightBitFrame_i2c b htransport).trans (logicalFrame_i2c 0#1 b htransport).symm⟩

/-- R140, R27: an event makes a sink call exactly when it is a transaction. -/
theorem sinkCall_isSome (cfg : Config) (e : Event) : (sinkCall cfg e).isSome = isTransaction e := by
  cases e <;> rfl

/-- Settles O18. -/
theorem oneSinkCallPerTransaction : Obligations.OneSinkCallPerTransaction := fun cfg _ _ _ _ _ e =>
  ⟨rfl, rfl, rfl, by rw [sinkCall_isSome]⟩

end Sys2Proof.Machine
end

section
/-! SUPPORT. What the host commands refuse (43_commands.md R170, R171, R181): `ready_check` outside READY, INIT's own
checks in the order of R203, and the reserved tags. -/

namespace Sys2Proof.Machine

theorem whenReady_of_not_ready (tag : Nat) (body : State → Answer) {s : State} (h : s.initState ≠ .ready) :
    whenReady tag body s = .next (raised (.notReady tag) s) :=
  ((whenReady_cases tag body s).resolve_left fun ready => h ready.1).2

/-- R170: the nine commands after INIT are the ones that begin with `ready_check`. -/
theorem exec_eq_whenReady {i : Instr} {tag : Nat} (h : hostTag i = some tag) (hpos : 0 < tag) (hlt : tag < 10) :
    ∃ body, ∀ s, exec i s = whenReady tag body s := by
  cases i
  case clearCmd | homeCmd | setcg | setdd | cursor | puts | status | txi | txd =>
    cases h
    exact ⟨_, fun _ => rfl⟩
  case init =>
    cases h
    exact absurd hpos (Nat.lt_irrefl 0)
  case reservedA | reservedB | reservedC | reservedD | reservedE | reservedF =>
    cases h
    exact absurd hlt (by decide)
  all_goals cases h

/-- Settles O25: `ready_check` comes before everything else these commands do. -/
theorem commandsOutsideReadyFaultNotReady : Obligations.CommandsOutsideReadyFaultNotReady := by
  intro s i tag htag hpos hlt hstate
  obtain ⟨body, begins⟩ := exec_eq_whenReady htag hpos hlt
  rw [begins, whenReady_of_not_ready tag body hstate]

/-- Settles O35: a reserved tag's meaning is to raise the fault. -/
theorem reservedTagsAreIllegalCommands : Obligations.ReservedTagsAreIllegalCommands := fun _ =>
  ⟨rfl, rfl, rfl, rfl, rfl, rfl⟩

theorem dlCfg_eq_ite (cfg : Config) : dlCfg cfg = if cfg.ifaceWidth = .w8 then 1#1 else 0#1 := by
  cases h : cfg.ifaceWidth <;> simp [dlCfg, h]

section
variable (cfg : Config) {fs dc em : BusInstr}

theorem initCheck_fs_class (hfs : fs.cls ≠ .functionSet) : initCheck cfg fs dc em = some (.invalidConfig .fs) :=
  if_pos hfs

theorem initCheck_dc_class (hfs : fs.cls = .functionSet) (hdc : dc.cls ≠ .displayCtl) :
    initCheck cfg fs dc em = some (.invalidConfig .dc) := by
  simp [initCheck, hfs, hdc]

theorem initCheck_em_class (hfs : fs.cls = .functionSet) (hdc : dc.cls = .displayCtl) (hem : em.cls ≠ .entryMode) :
    initCheck cfg fs dc em = some (.invalidConfig .em) := by
  simp [initCheck, hfs, hdc, hem]

/-- R171: with operands of their classes only the DL bit is left to check. -/
theorem initCheck_functionSet (dl n f : Bit) (hdc : dc.cls = .displayCtl) (hem : em.cls = .entryMode) :
    initCheck cfg (.functionSet dl n f) dc em = if dl = dlCfg cfg then none else some (.invalidConfig .fs) := by
  have hfs : (BusInstr.functionSet dl n f).cls = .functionSet := rfl
  simp [initCheck, hfs, hdc, hem, dlField]

end

section
variable {s : State} (fs dc em : BusInstr)

theorem exec_init_of_halted (hstate : s.initState = .halted) :
    exec (.init fs dc em) s = .next (raised (.notReady 0) s) := by
  simp only [exec, execInit, hstate, raise]

theorem exec_init_of_ready (hstate : s.initState = .ready) :
    exec (.init fs dc em) s = .next (raised .reInit s) := by
  simp only [exec, execInit, hstate, raise]

variable {fs dc em}

theorem exec_init_of_check_some {r : Raised} (hstate : s.initState = .uninit)
    (hcheck : initCheck s.cfg fs dc em = some r) : exec (.init fs dc em) s = .next (raised r s) := by
  simp only [exec, execInit, hstate, hcheck, raise]

end

/-- Settles O24: the state decides first, then the check of each operand in order. -/
theorem initRefusals : Obligations.InitRefusals := by
  intro s fs dc em
  refine ⟨exec_init_of_halted fs dc em, exec_init_of_ready fs dc em, fun huninit => ⟨?_, ?_, ?_, ?_⟩⟩
  · exact fun hfs => exec_init_of_check_some huninit (initCheck_fs_class _ hfs)
  · exact fun hfs hdc => exec_init_of_check_some huninit (initCheck_dc_class _ hfs hdc)
  · exact fun hfs hdc hem => exec_init_of_check_some huninit (initCheck_em_class _ hfs hdc hem)
  · rintro dl n f rfl hdc hem hdl
    rw [← dlCfg_eq_ite] at hdl
    exact exec_init_of_check_some huninit (by rw [initCheck_functionSet _ dl n f hdc hem, if_neg hdl])

end Sys2Proof.Machine
end

section
/-! SUPPORT. The host commands in READY (43_commands.md R172 to R180): the one frame of an instruction word or a data
byte, the address commands, the data bytes of PUTS, and the sampled byte of STATUS. -/

namespace Sys2Proof.Machine

/-- R146, R66, R32: the frame of an encoded instruction, named by its word, where the sink takes it. -/
theorem transmit_word_of_answersOk {i : BusInstr} {w : Word} {s : State} (hw : enc i = w)
    (htaken : answersOk (logicalFrame s.cfg 0#1 w).length s = true) :
    transmit [sendL s.cfg 0#1 (enc i)] s = .next
      { s with
        trace := s.trace ++ logicalFrame s.cfg 0#1 w
        responses := s.responses ++ [⟨.ok, none⟩]
        observer := observeInstr s.observer i
        ctlWidth := widthAfterInstr s.ctlWidth i
        sinkAnswers := answersLeft (logicalFrame s.cfg 0#1 w).length s } := by
  subst hw
  rw [transmit_sendL_of_answersOk htaken, delivered_enc]
  rfl

/-- Settles O26: CLEAR is the frame of its word. -/
theorem clearCommandCompletes : Obligations.ClearCommandCompletes := by
  intro s hready htaken
  rw [exec_clearCmd_of_ready hready htaken, delivered_enc]
  rfl

/-- Settles O27: HOME is the frame of its word. -/
theorem homeCommandCompletes : Obligations.HomeCommandCompletes := by
  intro s hready htaken
  rw [exec, execHomeCmd, whenReady_of_ready 2 _ hready]
  exact transmit_word_of_answersOk rfl htaken

/-- R106: the word 0x40 plus an address encodes it. -/
theorem enc_setCgram_eq {a : Nat} {w : Word} (hw : w.toNat = 0x40 + a % 64) :
    enc (.setCgram (BitVec.ofNat 6 (a % 64))) = w :=
  BitVec.eq_of_toNat_eq (by rw [enc_setCgram_toNat, hw, BitVec.toNat_ofNat, Nat.mod_mod])

/-- R107: the word 0x80 plus an address encodes it. -/
theorem enc_setDdram_eq {a : Nat} {w : Word} (hw : w.toNat = 0x80 + a % 128) :
    enc (.setDdram (BitVec.ofNat 7 (a % 128))) = w :=
  BitVec.eq_of_toNat_eq (by rw [enc_setDdram_toNat, hw, BitVec.toNat_ofNat, Nat.mod_mod])

/-- R66: a CGRAM address on the observer's seven bits is the same number. -/
theorem setWidth_cgramAddress (a : Nat) : (BitVec.ofNat 6 (a % 64)).setWidth 7 = BitVec.ofNat 7 (a % 64) :=
  BitVec.eq_of_toNat_eq (by simp)

/-- R174, R175, R178: a refused address is the fault. -/
theorem sendResolved_error (f : Raised) (s : State) : sendResolved (.error f) s = .next (raised f s) := rfl

/-- R175, R178: sending a resolved DDRAM address. -/
theorem sendResolved_ddram_of_answersOk {s : State} {a : Nat} {w : Word} (hw : w.toNat = 0x80 + a % 128)
    (haccepted : s.cfg.addrPolicy = .mask ∨ a ≤ 127)
    (htaken : answersOk (logicalFrame s.cfg 0#1 w).length s = true) :
    sendResolved (resolveDdram s.cfg a) s = .next
      { s with
        trace := s.trace ++ logicalFrame s.cfg 0#1 w
        responses := s.responses ++ [⟨.ok, none⟩]
        observer := ⟨some (BitVec.ofNat 7 (a % 128)), some .ddram, s.observer.id⟩
        sinkAnswers := answersLeft (logicalFrame s.cfg 0#1 w).length s } := by
  rw [resolveDdram_ok haccepted]
  exact transmit_word_of_answersOk (enc_setDdram_eq hw) htaken

theorem exec_setcg_of_ready (a : Nat) {s : State} (hready : s.initState = .ready) :
    exec (.setcg a) s = sendResolved (resolveCgram s.cfg a) s :=
  whenReady_of_ready 3 _ hready

theorem exec_setdd_of_ready (a : Nat) {s : State} (hready : s.initState = .ready) :
    exec (.setdd a) s = sendResolved (resolveDdram s.cfg a) s :=
  whenReady_of_ready 4 _ hready

theorem exec_cursor_of_ready (line col : Nat) {s : State} (hready : s.initState = .ready) :
    exec (.cursor line col) s = sendResolved (resolveCursor s.cfg line col) s :=
  whenReady_of_ready 5 _ hready

/-- Settles O28: the resolver's two branches (R120), and the frame of the word it accepts. -/
theorem setcgCommand : Obligations.SetcgCommand := by
  intro s a hready
  rw [exec_setcg_of_ready a hready]
  refine ⟨fun hpolicy above => ?_, fun w hw haccepted htaken => ?_⟩
  · rw [resolveCgram_error hpolicy above, sendResolved_error]
  · rw [resolveCgram_ok haccepted, ← setWidth_cgramAddress]
    exact transmit_word_of_answersOk (enc_setCgram_eq hw) htaken

/-- Settles O29: the resolver's two branches (R121). -/
theorem setddCommand : Obligations.SetddCommand := by
  intro s a hready
  rw [exec_setdd_of_ready a hready]
  refine ⟨fun hpolicy above => ?_, fun w hw haccepted htaken => ?_⟩
  · rw [resolveDdram_error hpolicy above, sendResolved_error]
  · exact sendResolved_ddram_of_answersOk hw haccepted htaken

/-- Settles O30: the line check comes first (R122); a line with an offset is the DDRAM address column plus offset. -/
theorem cursorCommand : Obligations.CursorCommand := by
  intro s line col hready
  rw [exec_cursor_of_ready line col hready]
  refine ⟨fun hline => ?_, fun off hline hoff => ?_⟩
  · rw [resolveCursor_error_of_line col hline, sendResolved_error]
  rw [resolveCursor_of_offset col hline hoff]
  refine ⟨fun hpolicy above => ?_, fun w hw haccepted htaken => ?_⟩
  · rw [resolveDdram_error hpolicy above, sendResolved_error]
  · exact sendResolved_ddram_of_answersOk hw haccepted htaken

/-- R176: PUTS stops at the first terminator, or at the end of its list where there is none. -/
theorem putsBytes_append {cfg : Config} {sent rest : List Byte} (hsent : cfg.terminator ∉ sent)
    (hrest : rest = [] ∨ rest.head? = some cfg.terminator) : putsBytes cfg (sent ++ rest) = sent := by
  have before : ∀ b ∈ sent, (b != cfg.terminator) = true := by
    intro b hb
    exact bne_iff_ne.2 fun h => hsent (h ▸ hb)
  have stop : rest.takeWhile (fun b => b != cfg.terminator) = [] := by
    rcases hrest with rfl | hhead
    · rfl
    · obtain ⟨tail, rfl⟩ := List.head?_eq_some_iff.1 hhead
      simp
  rw [putsBytes, List.takeWhile_append_of_pos before, stop, List.append_nil]

section
variable (cfg : Config) (bytes : List Byte)

theorem moveTransactions_putsMoves :
    moveTransactions (putsMoves cfg bytes) = ((putsBytes cfg bytes).flatMap (logicalFrame cfg 1#1)).length := by
  simp [moveTransactions, putsMoves, sendL, List.length_flatMap, Function.comp_def]

/-- R66: each data frame steps the observer's counter. -/
theorem moveObserver_putsMoves (o : Observer) :
    moveObserver o (putsMoves cfg bytes) =
      (putsBytes cfg bytes).foldl (fun o _ => ⟨stepAc o o.id, o.space, o.id⟩) o := by
  simp [moveObserver, putsMoves, sendL, List.foldl_map]

/-- R32: a data frame latches no function-set word. -/
theorem moveWidth_putsMoves (w : Option IfaceWidth) : moveWidth w (putsMoves cfg bytes) = w := by
  simp [moveWidth, putsMoves, sendL, List.foldl_map, widthAfter]

end

/-- Settles O31: PUTS is one data frame for each byte before the terminator. -/
theorem putsSendsBytesBeforeTerminator : Obligations.PutsSendsBytesBeforeTerminator := by
  intro s sent rest hready hsent hrest htaken
  have sends : putsBytes s.cfg (sent ++ rest) = sent := putsBytes_append hsent hrest
  have count := moveTransactions_putsMoves s.cfg (sent ++ rest)
  rw [sends] at count
  rw [exec, execPuts, whenReady_of_ready 6 _ hready, transmit_of_answersOk (count ▸ htaken), count, putsMoves_events,
    moveObserver_putsMoves, moveWidth_putsMoves, sends]
  rfl

theorem sampleBus_of_cons {s : State} {v : Byte} {rest : List Byte} (h : s.samples = v :: rest) :
    sampleBus s = (v, { s with samples := rest }) := by
  simp only [sampleBus, h]

theorem sampleBus_of_nil {s : State} (h : s.samples = []) :
    sampleBus s = (Config.sampledByte s.draws, { s with draws := s.draws + 1 }) := by
  simp only [sampleBus, h]

/-- Settles O32: the status read of each mode, with the bus's byte as the sample. -/
theorem statusCommandByReadMode : Obligations.StatusCommandByReadMode := by
  intro s hready
  rw [exec, execStatus, whenReady_of_ready 7 _ hready]
  refine ⟨statusRead_unsupported _, statusRead_sampled_i2c _, statusRead_stubZero _,
    fun hmode htransport htaken => ?_⟩
  rw [statusRead_sampled_parallel _ hmode htransport]
  exact ⟨fun _ _ hsamples => readCycle_of_answersOk htaken (sampleBus_of_cons hsamples),
    fun hsamples => readCycle_of_answersOk htaken (sampleBus_of_nil hsamples)⟩

theorem txiCheck_functionSet (cfg : Config) (dl n f : Bit) :
    txiCheck cfg (.functionSet dl n f) = if dl = dlCfg cfg then none else some (.invalidConfig .i) := rfl

/-- R179: only a function-set word of the wrong DL is refused. -/
theorem txiCheck_none {cfg : Config} {i : BusInstr} (h : ∀ dl n f, i = .functionSet dl n f → dl = dlCfg cfg) :
    txiCheck cfg i = none := by
  cases i with
  | functionSet dl n f => exact if_pos (h dl n f rfl)
  | _ => rfl

/-- R82: a function-set word of the configured DL sets the configured width. -/
theorem width_of_dlCfg (cfg : Config) : (if dlCfg cfg = 1#1 then IfaceWidth.w8 else .w4) = cfg.ifaceWidth := by
  cases h : cfg.ifaceWidth <;> simp [dlCfg, h]

/-- R32, R82: a word whose DL, if it has one, is the configured one leaves the width as it was or the configured one. -/
theorem widthAfterInstr_of_dlCfg {cfg : Config} {i : BusInstr} (w : Option IfaceWidth)
    (h : ∀ dl n f, i = .functionSet dl n f → dl = dlCfg cfg) :
    widthAfterInstr w i = if i.cls = .functionSet then some cfg.ifaceWidth else w := by
  cases i with
  | functionSet dl n f =>
    obtain rfl := h dl n f rfl
    exact congrArg some (width_of_dlCfg cfg)
  | _ => rfl

/-- Settles O33: the DL check, then the frame of the word. -/
theorem txiCommand : Obligations.TxiCommand := by
  intro s i hready
  rw [exec, execTxi, whenReady_of_ready 8 _ hready, ← dlCfg_eq_ite]
  constructor
  · rintro ⟨dl, n, f, rfl, hdl⟩
    simp only [sendChecked, txiCheck_functionSet, if_neg hdl, raise]
  · intro agrees htaken
    simp only [sendChecked, txiCheck_none agrees, ← widthAfterInstr_of_dlCfg s.ctlWidth agrees]
    exact transmit_word_of_answersOk rfl htaken

/-- Settles O34: TXD is one data frame, whatever the byte. -/
theorem txdCommandCompletes : Obligations.TxdCommandCompletes := by
  intro s b hready htaken
  rw [exec, execTxd, whenReady_of_ready 9 _ hready, transmit_sendL_of_answersOk htaken, delivered_data]
  rfl

end Sys2Proof.Machine
end

section
/-! SUPPORT. INIT completing (43_commands.md R171): the events of its moves, what they leave of the controller, and the
scenario of R182. -/

namespace Sys2Proof.Machine

theorem moveEvents_append (ms ms' : List Move) : moveEvents (ms ++ ms') = moveEvents ms ++ moveEvents ms' :=
  List.flatMap_append

theorem moveObserver_append (o : Observer) (ms ms' : List Move) :
    moveObserver o (ms ++ ms') = moveObserver (moveObserver o ms) ms' :=
  List.foldl_append

theorem moveWidth_append (w : Option IfaceWidth) (ms ms' : List Move) :
    moveWidth w (ms ++ ms') = moveWidth (moveWidth w ms) ms' :=
  List.foldl_append

section
variable (cfg : Config) (fs dc em : BusInstr)

/-- R171 step 1: the fallback's events. -/
theorem moveEvents_fallbackMoves :
    moveEvents (fallbackMoves cfg) =
      if cfg.initFallback then
        [.delayReq cfg.initDelaysMs.first] ++ eightBitFrame cfg cfg.fs8
          ++ [.delayReq cfg.initDelaysMs.second] ++ eightBitFrame cfg cfg.fs8
          ++ [.delayReq cfg.initDelaysMs.third] ++ eightBitFrame cfg cfg.fs8
      else [] := by
  cases h : cfg.initFallback <;> simp [fallbackMoves, h, moveEvents, send8]

/-- R66: the observer takes FS8 three times where the fallback is on. -/
theorem moveObserver_fallbackMoves (o : Observer) :
    moveObserver o (fallbackMoves cfg) =
      if cfg.initFallback then
        observeFrame (observeFrame (observeFrame o 0#1 cfg.fs8) 0#1 cfg.fs8) 0#1 cfg.fs8
      else o := by
  cases h : cfg.initFallback <;> simp [fallbackMoves, h, moveObserver, send8]

/-- R171: the fallback's events, then the four frames. -/
theorem moveEvents_initMoves :
    moveEvents (initMoves cfg fs dc em) =
      moveEvents (fallbackMoves cfg) ++ eightBitFrame cfg (enc fs) ++ logicalFrame cfg 0#1 (enc fs)
        ++ logicalFrame cfg 0#1 (enc dc) ++ logicalFrame cfg 0#1 (enc em) := by
  rw [initMoves, moveEvents_append]
  simp [moveEvents, send8, sendL]

theorem filter_logicalFrame (rs : Bit) (b : Word) :
    (logicalFrame cfg rs b).filter isTransaction = logicalFrame cfg rs b :=
  List.filter_eq_self.2 (frames_transactions cfg rs b).1

theorem filter_eightBitFrame (b : Word) : (eightBitFrame cfg b).filter isTransaction = eightBitFrame cfg b :=
  List.filter_eq_self.2 (frames_transactions cfg 0#1 b).2

/-- R141: INIT's transactions are its events without the delay requests. -/
theorem moveTransactions_initMoves :
    moveTransactions (initMoves cfg fs dc em) =
      ((moveEvents (initMoves cfg fs dc em)).filter isTransaction).length := by
  rw [moveEvents_initMoves, moveEvents_fallbackMoves]
  cases h : cfg.initFallback <;>
    simp [initMoves, fallbackMoves, h, moveTransactions, send8, sendL, isTransaction, filter_logicalFrame,
      filter_eightBitFrame]

variable (n f d c b id sh : Bit)

/-- R66: of INIT's own words only the entry-mode word has a row that changes the observer. -/
theorem moveObserver_initMoves (dl : Bit) (o : Observer) :
    moveObserver o (initMoves cfg (.functionSet dl n f) (.displayCtl d c b) (.entryMode id sh)) =
      { moveObserver o (fallbackMoves cfg) with id := some id } := by
  rw [initMoves, moveObserver_append]
  simp [moveObserver, send8, sendL, observeInstr]

/-- R32: INIT's function-set word is the last one latched. -/
theorem moveWidth_initMoves (w : Option IfaceWidth) :
    moveWidth w (initMoves cfg (.functionSet (dlCfg cfg) n f) (.displayCtl d c b) (.entryMode id sh)) =
      some cfg.ifaceWidth := by
  rw [initMoves, moveWidth_append]
  simp [moveWidth, send8, sendL, widthAfterInstr, width_of_dlCfg]

end

/-- R171: INIT runs its moves once its checks pass, and the block is READY. -/
theorem exec_init_of_answersOk {s : State} {fs dc em : BusInstr} (hstate : s.initState = .uninit)
    (hcheck : initCheck s.cfg fs dc em = none)
    (htaken : answersOk (moveTransactions (initMoves s.cfg fs dc em)) s = true) :
    exec (.init fs dc em) s = .next (respond ⟨.ok, none⟩ (becomeReady
      { s with
        trace := s.trace ++ moveEvents (initMoves s.cfg fs dc em)
        observer := moveObserver s.observer (initMoves s.cfg fs dc em)
        ctlWidth := moveWidth s.ctlWidth (initMoves s.cfg fs dc em)
        sinkAnswers := answersLeft (moveTransactions (initMoves s.cfg fs dc em)) s })) := by
  simp only [exec, execInit, hstate, hcheck, runMoves_of_answersOk 0 htaken]
  rfl

/-- Settles O23: the checks pass, and INIT's moves leave the events, the observer and the width the statement names. -/
theorem initCompletes : Obligations.InitCompletes := by
  intro s n f d c b id sh frames o hstate hframes ho htaken
  have check : initCheck s.cfg (.functionSet (dlCfg s.cfg) n f) (.displayCtl d c b) (.entryMode id sh) = none := by
    rw [initCheck_functionSet _ _ n f rfl rfl, if_pos rfl]
  rw [← moveEvents_fallbackMoves, ← moveEvents_initMoves] at hframes
  rw [← moveObserver_fallbackMoves] at ho
  subst hframes ho
  rw [← moveTransactions_initMoves] at htaken ⊢
  rw [exec_init_of_answersOk hstate check htaken, moveObserver_initMoves, moveWidth_initMoves]
  rfl

/-- R141, D19: a sink that cannot fail takes any number of transactions. -/
theorem answersOk_of_reliable (n : Nat) {s : State} (h : s.cfg.sinkCanFail = false) : answersOk n s = true := by
  simp [answersOk, h]

/-- Settles O55: O23 with the fallback off, then O31 for the two bytes before the terminator. -/
theorem initThenHiFrames : Obligations.InitThenHiFrames := by
  intro s n f d c b id sh hstate hfallback hreliable hH hi
  have unterminated : s.cfg.terminator ∉ [0x48#8, 0x69#8] := by simp [hH, hi]
  have initRuns := initCompletes s n f d c b id sh _ _ hstate rfl rfl (answersOk_of_reliable _ hreliable)
  refine ⟨_, _, initRuns, putsSendsBytesBeforeTerminator _ [0x48#8, 0x69#8] [s.cfg.terminator] rfl unterminated
    (.inr rfl) (answersOk_of_reliable _ hreliable), ?_, rfl, rfl⟩
  simp [hfallback]

end Sys2Proof.Machine
end

section
/-! SUPPORT. Exceptions (60_exceptions.md R200 to R206): the fault record a raised fault leaves, what a halted block
answers, and how far a command that meets a transport failure came. -/

namespace Sys2Proof.Machine

theorem firstFaultNumber_eq_zero_iff (s : State) : firstFaultNumber s = 0 ↔ s.firstFault = none := by
  unfold firstFaultNumber
  cases s.firstFault with
  | none => simp
  | some c => cases c <;> simp [FaultCode.number]

/-- R25: the new code is the first fault exactly where the first fault's number was 0. -/
theorem raised_firstFault_eq_ite (f : Raised) (s : State) :
    (raised f s).firstFault = if firstFaultNumber s = 0 then some f.code else s.firstFault := by
  simp only [raised_firstFault, firstFaultNumber_eq_zero_iff]
  cases s.firstFault <;> simp

/-- Settles O36: the record's two parts are `mem_insertCode` and the first fault; no other field is written. -/
theorem raiseRecordsTheFault : Obligations.RaiseRecordsTheFault := by
  refine fun f s => ⟨rfl, ?_, fun c => ?_⟩
  · rw [← raised_firstFault_eq_ite]
    rfl
  · rw [raised_faults, mem_insertCode, or_comm]

/-- Settles O37: the table of R200 is read off. -/
theorem faultCodesAreNumbered : Obligations.FaultCodesAreNumbered := fun _ _ _ =>
  ⟨rfl, rfl, rfl, rfl, rfl, rfl, rfl, rfl⟩

/-- Settles O41: construction and the step both begin with the validity check. -/
theorem invalidConfigurationHasNoInstance : Obligations.InvalidConfigurationHasNoInstance := by
  intro cfg invalid
  refine ⟨by simp [construct, invalid], ?_⟩
  rintro s rfl
  simp [step, invalid]

/-- R181: the tags from ten on are the reserved ones. -/
theorem exec_of_reserved_tag {i : Instr} {tag : Nat} (htag : hostTag i = some tag) (hge : 10 ≤ tag) (s : State) :
    exec i s = .next (raised (.illegalCommand tag) s) := by
  cases i
  case reservedA | reservedB | reservedC | reservedD | reservedE | reservedF =>
    cases htag
    rfl
  case init | clearCmd | homeCmd | setcg | setdd | cursor | puts | status | txi | txd =>
    cases htag
    exact absurd hge (by decide)
  all_goals cases htag

/-- Settles O50: INIT's own state check (R171), the `ready_check` of tags 1 to 9 (O25), and the reserved tags. -/
theorem haltedBlockRefusesEveryCommand : Obligations.HaltedBlockRefusesEveryCommand := by
  intro i tag s htag halted
  rcases Nat.lt_or_ge tag 10 with hlt | hge
  · rw [if_pos hlt]
    rcases Nat.eq_zero_or_pos tag with rfl | hpos
    · obtain ⟨fs, dc, em, rfl⟩ := eq_init_of_hostTag_zero htag
      exact exec_init_of_halted fs dc em halted
    · exact commandsOutsideReadyFaultNotReady s i tag htag hpos hlt (by simp [halted])
  · rw [if_neg (Nat.not_lt.2 hge)]
    exact exec_of_reserved_tag htag hge s

/-! ### Where a transport failure stops a command (R141, R202) -/

/-- The events `all` were emitted from `s` on up to a refused transaction, which left `s1` and the fault `f`. Before it
came the events `before`; with `base` transactions of the command before those, the fault names its index. -/
def StoppedAt (base : Nat) (all : List Event) (s s1 : State) (f : Raised) : Prop :=
  ∃ before e p l d, before ++ [e] <+: all ∧ isTransaction e = true
    ∧ p ≤ base + (before.filter isTransaction).length
    ∧ f = .transportFailure p (base + (before.filter isTransaction).length)
    ∧ s1 = halt { s with trace := s.trace ++ (before ++ [e]), sinkAnswers := l, draws := d }

theorem StoppedAt.append_right {base : Nat} {all : List Event} {s s1 : State} {f : Raised}
    (h : StoppedAt base all s s1 f) (later : List Event) : StoppedAt base (all ++ later) s s1 f := by
  obtain ⟨before, e, p, l, d, hprefix, rest⟩ := h
  exact ⟨before, e, p, l, d, hprefix.trans (List.prefix_append all later), rest⟩

/-- A command that stops after the events `sent` were emitted; what those did to the controller is lost. -/
theorem StoppedAt.append_left {base : Nat} {sent all : List Event} {s s1 : State} {f : Raised} {o : Observer}
    {w : Option IfaceWidth} {l : List Bool} {d : Nat}
    (h : StoppedAt (base + (sent.filter isTransaction).length) all
      { s with trace := s.trace ++ sent, observer := o, ctlWidth := w, sinkAnswers := l, draws := d } s1 f) :
    StoppedAt base (sent ++ all) s s1 f := by
  obtain ⟨before, e, p, l, d, hprefix, he, hp, rfl, rfl⟩ := h
  have count : base + ((sent ++ before).filter isTransaction).length =
      base + (sent.filter isTransaction).length + (before.filter isTransaction).length := by
    rw [List.filter_append, List.length_append, Nat.add_assoc]
  refine ⟨sent ++ before, e, p, l, d, ?_, he, count ▸ hp, by rw [count], by simp [halt]⟩
  rw [List.append_assoc]
  exact (List.prefix_append_right_inj sent).2 hprefix

/-- R141: the index `Xmit` reports is that of the list's last transaction sent. -/
theorem xmit_stoppedAt {base : Nat} {ts : List Event} {s s1 : State} {f : Raised}
    (hts : ∀ e ∈ ts, isTransaction e = true) (h : xmit base 0 ts s = (s1, some f)) : StoppedAt base ts s s1 f := by
  rcases xmit_cases base 0 ts s with ⟨l, d, hx⟩ | ⟨j, l, d, hj, -, hx⟩
  · rw [hx] at h
    cases h
  · rw [hx, Nat.zero_add] at h
    cases h
    have last : ts.take (j + 1) = ts.take j ++ [ts[j]] := List.take_succ_eq_append_getElem hj
    have count : ((ts.take j).filter isTransaction).length = j := by
      rw [List.filter_eq_self.2 fun e he => hts e (List.mem_of_mem_take he), List.length_take_of_le hj.le]
    refine ⟨ts.take j, ts[j], j, l, d, last ▸ List.take_prefix _ _, hts _ (List.getElem_mem hj), ?_, ?_, by rw [last]⟩
    · rw [count]; exact Nat.le_add_left j base
    · rw [count]

/-- A move whose frame consists of transactions (R9); a delay request has no frame. -/
def transactionMove : Move → Prop
  | .delay _ => True
  | .send _ _ frame => ∀ e ∈ frame, isTransaction e = true

theorem transactionMove_delay (t : Nat) : transactionMove (.delay t) := trivial

theorem transactionMove_sendL (cfg : Config) (rs : Bit) (b : Word) : transactionMove (sendL cfg rs b) :=
  (frames_transactions cfg rs b).1

theorem transactionMove_send8 (cfg : Config) (b : Word) : transactionMove (send8 cfg b) :=
  (frames_transactions cfg 0#1 b).2

theorem transactionMove_of_mem_putsMoves {cfg : Config} {bytes : List Byte} :
    ∀ m ∈ putsMoves cfg bytes, transactionMove m := by
  simp [putsMoves, transactionMove_sendL]

theorem transactionMove_of_mem_initMoves {cfg : Config} {fs dc em : BusInstr} :
    ∀ m ∈ initMoves cfg fs dc em, transactionMove m := by
  cases h : cfg.initFallback <;>
    simp [initMoves, fallbackMoves, h, transactionMove_delay, transactionMove_sendL, transactionMove_send8]

/-- R141, R202: the fault of a command's moves names the failing transaction among the command's own. -/
theorem runMoves_stoppedAt {base : Nat} {ms : List Move} {s s1 : State} {f : Raised}
    (hms : ∀ m ∈ ms, transactionMove m) (h : runMoves base ms s = (s1, some f)) :
    StoppedAt base (moveEvents ms) s s1 f := by
  induction ms generalizing base s with
  | nil => cases h
  | cons m ms ih =>
    obtain ⟨here, later⟩ := List.forall_mem_cons.1 hms
    rw [moveEvents_cons]
    cases m with
    | delay t => exact StoppedAt.append_left (sent := [.delayReq t]) (ih later h)
    | send rs b frame =>
      have events : moveEvents [.send rs b frame] = frame := by simp [moveEvents]
      rw [events]
      rcases xmit_cases base 0 frame s with ⟨l, d, hx⟩ | ⟨j, l, d, -, -, hx⟩
      · have count : (frame.filter isTransaction).length = frame.length := by rw [List.filter_eq_self.2 here]
        simp only [runMoves, hx, ← count] at h
        exact StoppedAt.append_left (ih later h)
      · simp only [runMoves, hx] at h
        exact (xmit_stoppedAt here (hx.trans h)).append_right _

/-! ### The checks before a command's first event raise no transport failure (R200, R202) -/

theorem resolveCgram_error_code {cfg : Config} {a : Nat} {f : Raised} (h : resolveCgram cfg a = .error f) :
    f.code ≠ .transportFailure := by
  unfold resolveCgram at h
  split at h <;> cases h
  nofun

theorem resolveDdram_error_code {cfg : Config} {a : Nat} {f : Raised} (h : resolveDdram cfg a = .error f) :
    f.code ≠ .transportFailure := by
  unfold resolveDdram at h
  split at h <;> cases h
  nofun

theorem resolveCursor_error_code {cfg : Config} {line col : Nat} {f : Raised}
    (h : resolveCursor cfg line col = .error f) : f.code ≠ .transportFailure := by
  unfold resolveCursor at h
  split at h
  · cases h; nofun
  · split at h
    · cases h; nofun
    · exact resolveDdram_error_code h

theorem initCheck_code {cfg : Config} {fs dc em : BusInstr} {f : Raised} (h : initCheck cfg fs dc em = some f) :
    f.code ≠ .transportFailure := by
  unfold initCheck at h
  repeat' split at h
  all_goals cases h
  all_goals nofun

theorem txiCheck_code {cfg : Config} {i : BusInstr} {f : Raised} (h : txiCheck cfg i = some f) :
    f.code ≠ .transportFailure := by
  unfold txiCheck at h
  split at h
  · cases h
  · split at h <;> cases h
    nofun

/-! ### How a command ends (R201, R202) -/

/-- A command of the events `all` raised a fault before its first event, stopped at a refused transaction, or returned
`OK`. It is `exec_cases` with the failing transaction named. -/
def EndsPrecisely (s : State) (all : List Event) (a : Answer) : Prop :=
  ∃ t, a = .next t ∧
    (Refused s t ∨ (∃ s1 f, StoppedAt 0 all s s1 f ∧ t = raised f s1) ∨
      ∃ res, t.responses = s.responses ++ [⟨.ok, res⟩])

section
variable {s : State} {all : List Event}

theorem raise_endsPrecisely {f : Raised} (h : f.code ≠ .transportFailure) : EndsPrecisely s all (raise f s) :=
  ⟨_, rfl, .inl ⟨f, h, rfl⟩⟩

theorem transmit_endsPrecisely {ms : List Move} (h : ∀ m ∈ ms, transactionMove m) :
    EndsPrecisely s (moveEvents ms) (transmit ms s) := by
  rcases runMoves_cases 0 ms s with ⟨l, d, hr⟩ | ⟨n, p, q, l, d, -, -, hr⟩
  · exact ⟨_, by rw [transmit, hr]; rfl, .inr (.inr ⟨none, rfl⟩)⟩
  · exact ⟨_, by rw [transmit, hr]; rfl, .inr (.inl ⟨_, _, runMoves_stoppedAt h hr, rfl⟩)⟩

theorem sendL_endsPrecisely (rs : Bit) (b : Word) :
    EndsPrecisely s (logicalFrame s.cfg rs b) (transmit [sendL s.cfg rs b] s) := by
  have events : moveEvents [sendL s.cfg rs b] = logicalFrame s.cfg rs b := by simp [moveEvents, sendL]
  exact events ▸ transmit_endsPrecisely (by simp [transactionMove_sendL])

theorem whenReady_endsPrecisely {tag : Nat} {body : State → Answer} (h : EndsPrecisely s all (body s)) :
    EndsPrecisely s all (whenReady tag body s) := by
  rcases whenReady_cases tag body s with ⟨-, hready⟩ | ⟨-, hready⟩
  · exact hready ▸ h
  · exact hready ▸ raise_endsPrecisely nofun

theorem sendResolved_endsPrecisely {r : Except Raised BusInstr}
    (h : ∀ {f}, r = .error f → f.code ≠ .transportFailure) :
    EndsPrecisely s (resolvedEvents s.cfg r) (sendResolved r s) := by
  cases r with
  | error f => exact raise_endsPrecisely (h rfl)
  | ok i => exact sendL_endsPrecisely 0#1 (enc i)

theorem sendChecked_endsPrecisely (i : BusInstr) :
    EndsPrecisely s (logicalFrame s.cfg 0#1 (enc i)) (sendChecked i s) := by
  unfold sendChecked
  split
  next f hcheck => exact raise_endsPrecisely (txiCheck_code hcheck)
  next => exact sendL_endsPrecisely 0#1 (enc i)

theorem readCycle_endsPrecisely {sample : State → Byte × State}
    (hsample : ∀ u, (sample u).2.responses = u.responses) :
    EndsPrecisely s [.readCycle 0#1] (readCycle sample s) := by
  rcases xmit_cases 0 0 [.readCycle 0#1] s with ⟨l, d, hx⟩ | ⟨j, l, d, -, -, hx⟩
  · simp only [readCycle, hx]
    exact ⟨_, rfl, .inr (.inr ⟨_, congrArg (· ++ [_]) (hsample _)⟩)⟩
  · have stopped := xmit_stoppedAt (by simp [isTransaction]) hx
    simp only [readCycle, hx]
    exact ⟨_, rfl, .inr (.inl ⟨_, _, stopped, rfl⟩)⟩

theorem statusRead_endsPrecisely {sample : State → Byte × State}
    (hsample : ∀ u, (sample u).2.responses = u.responses) :
    EndsPrecisely s (statusEvents s.cfg) (statusRead sample s) := by
  unfold statusRead
  split
  next => exact raise_endsPrecisely nofun
  next => exact ⟨_, rfl, .inr (.inr ⟨_, rfl⟩)⟩
  next => exact raise_endsPrecisely nofun
  next hmode htransport =>
    rw [statusEvents, if_pos ⟨hmode, htransport⟩]
    exact readCycle_endsPrecisely hsample

theorem execInit_endsPrecisely (fs dc em : BusInstr) :
    EndsPrecisely s (moveEvents (initMoves s.cfg fs dc em)) (execInit fs dc em s) := by
  unfold execInit
  split
  next => exact raise_endsPrecisely nofun
  next => exact raise_endsPrecisely nofun
  next =>
    split
    next f hcheck => exact raise_endsPrecisely (initCheck_code hcheck)
    next =>
      rcases runMoves_cases 0 (initMoves s.cfg fs dc em) s with ⟨l, d, hr⟩ | ⟨n, p, q, l, d, -, -, hr⟩
      · rw [hr]
        exact ⟨_, rfl, .inr (.inr ⟨none, rfl⟩)⟩
      · have stopped := runMoves_stoppedAt transactionMove_of_mem_initMoves hr
        rw [hr]
        exact ⟨_, rfl, .inr (.inl ⟨_, _, stopped, rfl⟩)⟩

end

theorem sampleBus_responses (s : State) : (sampleBus s).2.responses = s.responses := by
  obtain ⟨v, l, d, h⟩ := sampleBus_cases s
  rw [h]

theorem exec_endsPrecisely (i : Instr) (s : State) : EndsPrecisely s (commandEvents s.cfg i) (exec i s) := by
  cases i with
  | clear | home | entryMode | displayControl | shift | functionSet | setCgramAddress | setDdramAddress | writeData =>
    exact sendL_endsPrecisely _ _
  | readBfAc => exact statusRead_endsPrecisely fun _ => rfl
  | init fs dc em => exact execInit_endsPrecisely fs dc em
  | clearCmd | homeCmd | txd => exact whenReady_endsPrecisely (sendL_endsPrecisely _ _)
  | setcg => exact whenReady_endsPrecisely (sendResolved_endsPrecisely resolveCgram_error_code)
  | setdd => exact whenReady_endsPrecisely (sendResolved_endsPrecisely resolveDdram_error_code)
  | cursor => exact whenReady_endsPrecisely (sendResolved_endsPrecisely resolveCursor_error_code)
  | puts bytes =>
    rw [commandEvents, ← putsMoves_events]
    exact whenReady_endsPrecisely (transmit_endsPrecisely transactionMove_of_mem_putsMoves)
  | status => exact whenReady_endsPrecisely (statusRead_endsPrecisely sampleBus_responses)
  | txi i => exact whenReady_endsPrecisely (sendChecked_endsPrecisely i)
  | reservedA | reservedB | reservedC | reservedD | reservedE | reservedF => exact raise_endsPrecisely nofun

/-- Settles O38: of the ways a command can end, a fault before the first event leaves `raised f s`, and a refused
transaction leaves the events up to it. -/
theorem faultsArePrecise : Obligations.FaultsArePrecise := by
  intro i s t f r hexec hresponse
  obtain ⟨t', hexec', hends⟩ := exec_endsPrecisely i s
  obtain rfl : t' = t := Host.Outcome.next.inj (hexec'.symm.trans hexec)
  rcases hends with ⟨g, hg, rfl⟩ | ⟨s1, g, ⟨before, e, p, l, d, hprefix, he, hp, rfl, rfl⟩, rfl⟩ | ⟨res, hok⟩
  · obtain ⟨rfl, -⟩ : g = f ∧ none = r := by simpa using hresponse
    refine ⟨fun _ => rfl, ?_⟩
    rintro p q rfl
    exact absurd rfl hg
  · rw [Nat.zero_add] at hp hresponse ⊢
    obtain ⟨rfl, -⟩ : _ = f ∧ none = r := by simpa using hresponse
    refine ⟨fun hcode => absurd rfl hcode, ?_⟩
    rintro _ _ ⟨⟩
    exact ⟨before ++ [e], l, d, hprefix, by simp [he], by simp [he], hp, rfl⟩
  · simp [hok] at hresponse

end Sys2Proof.Machine
end

section
/-! SUPPORT. Reset and what comes before READY (70_reset_and_hazards.md R230 to R234): in UNINIT every host command but
INIT takes a fault before it emits anything. -/

namespace Sys2Proof.Machine

/-- R170, R181, R234: in UNINIT tags 1 to 9 stop at `ready_check`, and the tags from ten on are reserved. -/
theorem exec_next_of_uninit_not_init {i : Instr} {tag : Nat} {s t : State} (htag : hostTag i = some tag)
    (hne : tag ≠ 0) (huninit : s.initState = .uninit) (hexec : exec i s = .next t) : ∃ f, t = raised f s := by
  have faults : ∃ f, exec i s = .next (raised f s) := by
    rcases Nat.lt_or_ge tag 10 with hlt | hge
    · have not_ready : s.initState ≠ .ready := by simp [huninit]
      exact ⟨_, commandsOutsideReadyFaultNotReady s i tag htag (Nat.pos_of_ne_zero hne) hlt not_ready⟩
    · exact ⟨_, exec_of_reserved_tag htag hge s⟩
  obtain ⟨f, hfault⟩ := faults
  exact ⟨f, Host.Outcome.next.inj (hexec.symm.trans hfault)⟩

/-- Settles O40: construction gives `State.fresh`; a command before INIT leaves `raised f u`, and `exec_host_frame`
keeps the configuration. -/
theorem constructionGivesResetState : Obligations.ConstructionGivesResetState := by
  refine ⟨fun cfg hvalid => ?_, fun i tag u v htag hne huninit hexec => ?_, fun i u v hexec => ?_⟩
  · exact ⟨State.fresh cfg, construct_eq_some_iff.2 ⟨hvalid, rfl⟩, rfl, rfl, rfl, rfl, rfl, rfl, rfl, rfl⟩
  · obtain ⟨f, rfl⟩ := exec_next_of_uninit_not_init htag hne huninit hexec
    exact raised_trace f u
  · obtain ⟨hcfg, -, -⟩ := exec_host_frame hexec
    exact hcfg

/-- Settles O51: a raised fault writes none of the three fields, so a command that changes one of them has tag 0. -/
theorem onlyInitEmitsBeforeReady : Obligations.OnlyInitEmitsBeforeReady := by
  intro i tag s t htag huninit hexec hchanged
  by_contra hne
  obtain ⟨f, rfl⟩ := exec_next_of_uninit_not_init htag hne huninit hexec
  simp at hchanged

end Sys2Proof.Machine
end

section
/-! SUPPORT. The round trip of every well-formed instruction (30_encoding.md R80 to R89), and the invariant of an instance
just constructed (70_reset_and_hazards.md R230, R232). -/

namespace Sys2Proof.Machine

/-- Settles O6: `decode_encode`, constructor by constructor; its premise bounds the numbers of SETCG, SETDD and CURSOR,
so that each fits the bytes its operand takes. -/
theorem decodeOfEncodeIsIdentity : Obligations.DecodeOfEncodeIsIdentity := fun _ _ => decode_encode

/-- R25: a constructed instance has an empty fault record and no response to report one. -/
theorem faultRecordOk_fresh (cfg : Config) : faultRecordOk (State.fresh cfg) := by
  have no_fault_reported : ∀ c, c ∈ (State.fresh cfg).faults ↔
      ∃ r ∈ (State.fresh cfg).responses, r.faultCode = some c := by simp [State.fresh]
  exact ⟨rfl, no_fault_reported, rfl⟩

/-- R230, R232: a valid configuration's instance starts in UNINIT, so neither halted nor ready, with no event, response
or recorded fault, and nothing known of the observer. -/
theorem inv_fresh {cfg : Config} (hvalid : configValid cfg = true) : Inv (State.fresh cfg) := by
  have halted_iff : (State.fresh cfg).initState = .halted ↔ FaultCode.transportFailure ∈ (State.fresh cfg).faults := by
    simp [State.fresh]
  have not_halted : (State.fresh cfg).initState ≠ .halted := nofun
  have observer : observerOk (State.fresh cfg).observer := nofun
  exact ⟨hvalid, faultRecordOk_fresh cfg, halted_iff, fun h => absurd h not_halted, rfl, rfl, rfl, observer⟩

/-- Settles O43: both are `State.fresh` of a valid configuration (`inv_fresh`). -/
theorem constructedStateMeetsInvariant : Obligations.ConstructedStateMeetsInvariant := by
  have reset_valid : configValid Config.atReset = true := by decide
  refine ⟨inv_fresh reset_valid, fun cfg s hs => ?_⟩
  obtain ⟨hvalid, rfl⟩ := construct_eq_some_iff.1 hs
  exact inv_fresh hvalid

end Sys2Proof.Machine
end
